-- ==== Sys2Proof/Word.lean ====
section
/-! DEFINITION. The plain word types of S7X and the names of its pins and of a digit's LED segments (spec/00_scope.md R7, R8, R9). -/

namespace Sys2Proof

/-- A byte, bit 0 the least significant bit (R8). -/
abbrev Byte := BitVec 8

/-- The level of a pin: `true` is 1 (high), `false` is 0 (low) (R8, R11). -/
abbrev Level := Bool

/-- The three output pins (R11). S7X has no input pin. -/
inductive Pin where
  | din
  | clk
  | cs
  deriving DecidableEq, Repr

/-- The seven LED segments of one digit (R122); the decimal point is bit 7 of a segment byte and none of them. -/
inductive Segment where
  | a
  | b
  | c
  | d
  | e
  | f
  | g
  deriving DecidableEq, Repr, Inhabited

/-- The two display modes the source describes (R113). -/
inductive DisplayMode where
  | noDecode
  | bcdDecode
  deriving DecidableEq, Repr

end Sys2Proof
end

