-- ==== Sys2Proof/Syntax.lean ====
section
/-! DEFINITION. The operations of S7X: the primitive operations and named frames of spec/opcode_table.json, the macro operations a host
expands (spec/30_encoding.md R73), and the words in which an operation is presented (R60, R62). -/

namespace Sys2Proof

/-- The bit order of the serializer (R80, R81): 0 is most significant first, 1 is least significant first. -/
inductive BitOrder where
  | msb
  | lsb
  deriving DecidableEq, Repr

/-- One constructor per row of spec/opcode_table.json: the four command words (R63), then the thirteen frames (R61). -/
inductive Instr where
  | shift8 (o : BitOrder) (b : Byte)
  | wrreg (a d : Byte)
  | encd (d : Byte)
  | encc (x : Byte)
  | wrDig0 (d : Byte)
  | wrDig1 (d : Byte)
  | wrDig2 (d : Byte)
  | wrDig3 (d : Byte)
  | wrDig4 (d : Byte)
  | wrDig5 (d : Byte)
  | wrDig6 (d : Byte)
  | wrDig7 (d : Byte)
  | wrDecode (d : Byte)
  | wrIntens (d : Byte)
  | wrScan (d : Byte)
  | wrShdn (d : Byte)
  | wrDtest (d : Byte)
  deriving DecidableEq, Repr

/-- The eight macro operations, which have no word of their own (R73). Their operand domains are D13: `WellFormed.lean`. -/
inductive MacroOp where
  /-- `INIT` (R110). -/
  | init
  /-- `DISPLAY s1 .. s8`: `sk` is for position `k` from the left (R125). -/
  | display (s1 s2 s3 s4 s5 s6 s7 s8 : Byte)
  /-- `TEXT t` (R126). -/
  | text (t : List Byte)
  /-- `TIME h, m, s, x` (R128). -/
  | time (h m s x : Nat)
  /-- `DATE day, month, year` (R130). -/
  | date (day month year : Nat)
  /-- `COORD c, n`: `n` is the value in thousandths, already rounded by the host (R131, D15). -/
  | coord (c : Byte) (n : Int)
  /-- `BRIGHT level` (R132). -/
  | bright (level : Int)
  /-- `TEST` (R133). -/
  | test
  deriving DecidableEq, Repr

/-- A word as it is presented to S7X: a command word of 20 bits (R62), a frame named by its own 16 bits (R60; log 5), or bits of
any other length, which R71 says no format has. -/
inductive PortWord where
  | cmd20 (w : BitVec 20)
  | frame16 (w : BitVec 16)
  | otherLength (nbits bits : Nat)
  deriving DecidableEq, Repr

end Sys2Proof
end

