-- ==== Sys2Proof/WellFormed.lean ====
section
/-! DEFINITION. Which operations the spec admits. A primitive operation or frame is admitted with every operand value (spec/60_exceptions.md
R140); a macro operation only inside its operand domain (D13 of spec/92_eei_decisions.md) and, for `COORD`, its precondition (R131). -/

namespace Sys2Proof

/-- Every operand value of every primitive operation has a defined result (R140, R81, R90, R118, R119), and its width is in
its type, so there is nothing left to check. -/
def Instr.wellFormed : Instr → Bool
  | .shift8 _ _ | .wrreg _ _ | .encd _ | .encc _ => true
  | .wrDig0 _ | .wrDig1 _ | .wrDig2 _ | .wrDig3 _ | .wrDig4 _ | .wrDig5 _ | .wrDig6 _ | .wrDig7 _ => true
  | .wrDecode _ | .wrIntens _ | .wrScan _ | .wrShdn _ | .wrDtest _ => true

/-- The operand domains of the macro operations (D13): time fields, day and month 0 to 255, year 0 to 65535, any brightness,
any bytes; and the precondition `-999999 <= n <= 9999999` of `COORD` (R131). -/
def MacroOp.wellFormed : MacroOp → Bool
  | .time h m s x => decide (h ≤ 255 ∧ m ≤ 255 ∧ s ≤ 255 ∧ x ≤ 255)
  | .date day month year => decide (day ≤ 255 ∧ month ≤ 255 ∧ year ≤ 65535)
  | .coord _ n => decide (-999999 ≤ n ∧ n ≤ 9999999)
  | .init | .display _ _ _ _ _ _ _ _ | .text _ | .bright _ | .test => true

/-- The documented ranges inside the domains (R135): time fields, day and month up to 99, year up to 9999. -/
def MacroOp.documented : MacroOp → Bool
  | .time h m s x => decide (h ≤ 99 ∧ m ≤ 99 ∧ s ≤ 99 ∧ x ≤ 99)
  | .date day month year => decide (day ≤ 99 ∧ month ≤ 99 ∧ year ≤ 9999)
  | .coord _ n => decide (-999999 ≤ n ∧ n ≤ 9999999)
  | .init | .display _ _ _ _ _ _ _ _ | .text _ | .bright _ | .test => true

/-- A presented word has one of the two lengths of R71. -/
def PortWord.hasAFormat : PortWord → Bool
  | .cmd20 _ | .frame16 _ => true
  | .otherLength _ _ => false

end Sys2Proof
end

