-- ==== Sys2Proof/Decode.lean ====
section
/-! DEFINITION. The decoder of a presented word, total and rejecting by name, and after it the encoder (spec/30_encoding.md R60 to R63,
R68, R69, R71). -/

namespace Sys2Proof

/-- Why a word is no operation. -/
inductive Reject where
  /-- `op` is 0x0 or 0x5 to 0xF (R69). -/
  | reservedOp
  /-- `SHIFT8` with any of `a[7:1]` set (R69). -/
  | shift8ReservedBits
  /-- `ENCD` with `a` not 0 (R69). -/
  | encdReservedBits
  /-- `ENCC` with `a` not 0 (R69). -/
  | enccReservedBits
  /-- Neither 16 nor 20 bits (R71). -/
  | noSuchLength
  deriving DecidableEq, Repr

/-- What the decoder answers. -/
inductive Decoded where
  | op (i : Instr)
  | rejected (r : Reject)
  deriving DecidableEq, Repr

/-- The instruction read, if one was. -/
def Decoded.instr? : Decoded → Option Instr
  | .op i => some i
  | .rejected _ => none

/-- The bit order a 1-bit operand names (R81). -/
def orderOfBit : Bool → BitOrder
  | false => .msb
  | true => .lsb

/-- The 1-bit operand that names a bit order (R81). -/
def bitOfOrder : BitOrder → Bool
  | .msb => false
  | .lsb => true

/-- A command word: `op` in bits 19:16, `a` in 15:8, `b` in 7:0 (R62, R63, R69). -/
def decodeCommand (w : BitVec 20) : Decoded :=
  let op := w.extractLsb' 16 4
  let a : Byte := w.extractLsb' 8 8
  let b : Byte := w.extractLsb' 0 8
  if op = 0x1#4 then
    if a.extractLsb' 1 7 = 0#7 then .op (.shift8 (orderOfBit (a.getLsbD 0)) b) else .rejected .shift8ReservedBits
  else if op = 0x2#4 then .op (.wrreg a b)
  else if op = 0x3#4 then
    if a = 0x00#8 then .op (.encd b) else .rejected .encdReservedBits
  else if op = 0x4#4 then
    if a = 0x00#8 then .op (.encc b) else .rejected .enccReservedBits
  else .rejected .reservedOp

/-- A frame word: the address byte in bits 15:8 is its opcode, the data byte in 7:0 (R60, R61). A frame to an address with no
mnemonic is the `WRREG` that sends it (R68, R108). -/
def decodeFrame (w : BitVec 16) : Instr :=
  let a : Byte := w.extractLsb' 8 8
  let d : Byte := w.extractLsb' 0 8
  if a = 0x01#8 then .wrDig0 d
  else if a = 0x02#8 then .wrDig1 d
  else if a = 0x03#8 then .wrDig2 d
  else if a = 0x04#8 then .wrDig3 d
  else if a = 0x05#8 then .wrDig4 d
  else if a = 0x06#8 then .wrDig5 d
  else if a = 0x07#8 then .wrDig6 d
  else if a = 0x08#8 then .wrDig7 d
  else if a = 0x09#8 then .wrDecode d
  else if a = 0x0A#8 then .wrIntens d
  else if a = 0x0B#8 then .wrScan d
  else if a = 0x0C#8 then .wrShdn d
  else if a = 0x0F#8 then .wrDtest d
  else .wrreg a d

/-- The decoder, total on every word. -/
def decode : PortWord → Decoded
  | .cmd20 w => decodeCommand w
  | .frame16 w => .op (decodeFrame w)
  | .otherLength _ _ => .rejected .noSuchLength

/-- The command word with these three fields (R62). -/
def commandWord (op : BitVec 4) (a b : Byte) : PortWord := .cmd20 (op ++ a ++ b)

/-- The frame word with these two fields (R60). -/
def frameWord (a d : Byte) : PortWord := .frame16 (a ++ d)

/-- The encoder: the word of each instruction, from the encodings of R63 and R61. -/
def encode : Instr → PortWord
  | .shift8 o b => commandWord 0x1#4 (BitVec.setWidth 8 (BitVec.ofBool (bitOfOrder o))) b
  | .wrreg a d => commandWord 0x2#4 a d
  | .encd d => commandWord 0x3#4 0x00#8 d
  | .encc x => commandWord 0x4#4 0x00#8 x
  | .wrDig0 d => frameWord 0x01#8 d
  | .wrDig1 d => frameWord 0x02#8 d
  | .wrDig2 d => frameWord 0x03#8 d
  | .wrDig3 d => frameWord 0x04#8 d
  | .wrDig4 d => frameWord 0x05#8 d
  | .wrDig5 d => frameWord 0x06#8 d
  | .wrDig6 d => frameWord 0x07#8 d
  | .wrDig7 d => frameWord 0x08#8 d
  | .wrDecode d => frameWord 0x09#8 d
  | .wrIntens d => frameWord 0x0A#8 d
  | .wrScan d => frameWord 0x0B#8 d
  | .wrShdn d => frameWord 0x0C#8 d
  | .wrDtest d => frameWord 0x0F#8 d

/-- The word whose bits, numbered as spec/opcode_table.json numbers them, are `bits`. The table gives a row 16 bits (FRAME16)
or 20 (CMD20, 24 when counted in whole bytes). -/
def portWordOfBits (nbits bits : Nat) : PortWord :=
  if nbits = 16 ∧ bits < 2 ^ 16 then .frame16 (BitVec.ofNat 16 bits)
  else if (nbits = 20 ∨ nbits = 24) ∧ bits < 2 ^ 20 then .cmd20 (BitVec.ofNat 20 bits)
  else .otherLength nbits bits

/-- The instruction the decoder reads from a word of the opcode table. -/
def decodeTableWord (nbits w : Nat) : Option Instr := (decode (portWordOfBits nbits w)).instr?

end Sys2Proof
end

