-- ==== Sys2Proof/Machine/State.lean ====
section
/-! DEFINITION. The state of S7X as plain data, why a step can stop, and the state right after power-on (spec/10_state.md). -/

namespace Sys2Proof.Machine

/-- Which pin-writing primitive is running: the register `OP` (R14). -/
inductive OpKind where
  | shift8
  | wrreg
  deriving DecidableEq, Repr

/-- One event of `TRACE`: a pin write `W(p, v)` or a reset `RST` (R13). -/
inductive Event where
  | write (p : Pin) (v : Level)
  | rst
  deriving DecidableEq, Repr

/-- The framing state `RX` of the reference receiver (R39). -/
structure Rx where
  /-- The last level seen on CS. -/
  sel : Level
  /-- The last level seen on CLK. -/
  clk : Level
  /-- The last level seen on DIN. -/
  din : Level
  /-- The bits shifted in since chip-select fell. -/
  sh : BitVec 16
  /-- How many. -/
  cnt : Nat
  /-- The clock was high as chip-select fell, or the data line changed while the clock was high inside the frame. -/
  bad : Bool
  deriving DecidableEq, Repr

/-- The reset value of `RX` (R38, R39). -/
def Rx.reset : Rx := { sel := true, clk := false, din := false, sh := 0#16, cnt := 0, bad := false }

/-- A sparse store of bytes, in one canonical form: numbers strictly rising. A number that is not listed holds no byte: for the
target's register file that is `⊥`, "the source does not say what the register holds" (R45). -/
abbrev Memory := List Host.Cell

/-- An operand of `WRREG` as the host writes it (R72). -/
inductive WrregOperand where
  /-- A byte written out. -/
  | byte (b : Byte)
  /-- `RES`: the byte the preceding `ENCD` or `ENCC` left there (R72). -/
  | res
  /-- The byte of the host's variable `v` (log 13). -/
  | var (v : Nat)
  deriving DecidableEq, Repr

/-- One action of the host (R179, R180). -/
inductive HostAct where
  /-- Present a word on the operation port (R18, R62). -/
  | present (w : PortWord)
  /-- Present `WRREG a, d` with its operands as the host writes them: either may be `RES` (R72). -/
  | presentWrreg (a d : WrregOperand)
  /-- Read `RES` (R180) into the host's variable `v`, with the decimal point added if `dp` (R65). -/
  | takeRes (v : Nat) (dp : Bool)
  /-- Expand a macro operation in place (R73). -/
  | call (m : MacroOp)
  /-- Do nothing for one transition: the host "may also wait as long as it likes" (R179). -/
  | wait
  deriving DecidableEq, Repr

/-- The whole state (R10), and after it the inputs of the environment (logs 1, 2 and 13). -/
structure State where
  /-- `pin[DIN]`, the data line (R11). -/
  din : Level
  /-- `pin[CLK]`, the clock line (R11). -/
  clk : Level
  /-- `pin[CS]`, chip-select, active low (R11). -/
  cs : Level
  /-- `BUSY`, the only flag (R16). -/
  busy : Bool
  /-- `OP` (R14). -/
  op : OpKind
  /-- `HA` (R14): the address byte, or the bit order in bit 0. -/
  ha : Byte
  /-- `HB` (R14): the data byte, or the byte to shift. -/
  hb : Byte
  /-- `UPC`: the index of the next pin write (R17). -/
  upc : BitVec 6
  /-- `RES`: the encoder's result (R15). -/
  res : Byte
  /-- `TRACE`, oldest event first (R13). -/
  trace : List Event
  /-- `REG`, the target's registers as the reference receiver knows them (R23, R45). -/
  reg : Memory
  /-- `RX` (R39). -/
  rx : Rx
  /-- What the host will do, the next action first (R179; log 1). -/
  host : List HostAct
  /-- The bytes the host holds in its own variables (log 13). -/
  vars : Memory
  /-- When the reset input fires: how many transitions come before the next reset, then how many before the one after
  (R160, R179; log 2). -/
  resets : List Nat
  deriving DecidableEq, Repr

/-- Why the machine stops with a fault. S7X itself raises no exception (R140). -/
inductive Fault where
  /-- Raised by `microStep` when `BUSY = 1` and `UPC` is past the end of the running sequence, for which R19 has no
  element to write. No run reaches it (log 15). Safe. -/
  | sequencerPastEnd
  deriving DecidableEq, Repr

/-- Why the machine gives something no meaning. -/
inductive Refusal where
  /-- Raised by an arm of `exec` whose instruction has no meaning yet. Safe. -/
  | notModelled (mnemonic : String)
  /-- Raised by every instruction executed while `BUSY = 1`: the operation port is not ready (R18; log 16). Safe. -/
  | portNotReady
  /-- Raised when the host presents a word the decoder rejects (R69, R71, U7; log 4). Safe. -/
  | reservedWord (r : Reject)
  /-- Raised by a host call of `TIME` or `DATE` with an operand outside its domain (D13, U14; log 17). Safe. -/
  | operandOutOfDomain
  /-- Raised by a host call of `COORD` outside its precondition (R131, U5; log 17). Safe. -/
  | coordDoesNotFit
  /-- Raised by `INIT` in the BCD decode variant (R113, U11; log 17); `DISPLAY_MODE` is fixed to the other. Safe. -/
  | bcdDecodeNotAdmitted
  /-- Raised by `presentWrreg` for an operand that is a variable the host has not filled (log 13). Safe. -/
  | hostVariableUnset
  deriving DecidableEq, Repr

/-- The state right after power-on (R38, R160, D6): every register at its reset value, `TRACE` empty, every `REG[a] = ⊥`. The
environment's inputs are empty. -/
def State.reset : State where
  din := false
  clk := false
  cs := true
  busy := false
  op := .wrreg
  ha := 0x00#8
  hb := 0x00#8
  upc := 0#6
  res := 0x00#8
  trace := []
  reg := []
  rx := Rx.reset
  host := []
  vars := []
  resets := []

end Sys2Proof.Machine
end

