-- ==== Sys2Proof/Machine/Flags.lean ====
section
/-! DEFINITION. The flag computations. `BUSY` is the only flag of S7X (spec/10_state.md R16, R37). -/

namespace Sys2Proof.Machine

/-- `BUSY` after `Issue` of a pin-writing operation (R16, R18). -/
def busyAfterIssue : Bool := true

/-- `BUSY` after one `Step`: it falls when the incremented `UPC` has reached the sequence's length (R19). -/
def busyAfterWrite (upc : BitVec 6) (length : Nat) (busy : Bool) : Bool := if upc.toNat = length then false else busy

/-- Whether the operation port is ready: `Issue` is enabled if and only if `BUSY = 0` (R18). -/
def portReady (s : State) : Bool := !s.busy

end Sys2Proof.Machine
end

