-- ==== Sys2Proof/Machine/Receiver.lean ====
section
/-! DEFINITION. Byte stores and the reference receiver: from pin writes to register writes (spec/20_memory.md R44 to R49). -/

namespace Sys2Proof.Machine

/-- What entry `a` holds; `none` is `⊥` (R45). -/
def Memory.read : Memory → Nat → Option Byte
  | [], _ => none
  | (k, v) :: m, a => if a = k then some v else Memory.read m a

/-- Entry `a` takes the value `d`, every other entry unchanged (R47). It keeps the canonical form. -/
def Memory.write : Memory → Nat → Byte → Memory
  | [], a, d => [(a, d)]
  | (k, v) :: m, a, d =>
    if a < k then (a, d) :: (k, v) :: m
    else if a = k then (a, d) :: m
    else (k, v) :: Memory.write m a d

/-- `AllUnknown` (R45): every entry `⊥`. -/
def Memory.allUnknown : Memory := []

/-- The numbers rise strictly, from `lo` on. -/
def Memory.risingFrom : Nat → Memory → Bool
  | _, [] => true
  | lo, (k, _) :: m => decide (lo ≤ k) && Memory.risingFrom (k + 1) m

/-- The canonical form. An unlisted entry reads as no byte, so no listed one can equal it. -/
def Memory.wf (m : Memory) : Bool := Memory.risingFrom 0 m

/-- Every listed entry lies in the target's 8-bit register space (R23, R40). -/
def Memory.inRegisterSpace (m : Memory) : Bool := m.all fun c => decide (c.1 < 256)

/-- `MemWrite(a, 1, d)` on the target's register file (R47): all 8 address bits select. -/
def memWrite (m : Memory) (a d : Byte) : Memory := m.write a.toNat d

/-- The register file and the receiver's framing state together. -/
abbrev Target := Memory × Rx

/-- `W(DIN, v)` (R46). -/
def onDin (v : Level) (t : Target) : Target :=
  (t.1, { t.2 with
    bad := if t.2.sel = false ∧ t.2.clk = true ∧ v ≠ t.2.din then true else t.2.bad
    din := v })

/-- The shift register after a bit is taken: `((sh << 1) | din)[15:0]` (R46). -/
def shiftIn (sh : BitVec 16) (v : Level) : BitVec 16 := (sh <<< 1) ||| BitVec.setWidth 16 (BitVec.ofBool v)

/-- `W(CLK, v)` (R46, R49): the bit is taken at a rise inside a frame; a rise outside a frame makes every register `⊥`. -/
def onClk (v : Level) (t : Target) : Target :=
  if v = true ∧ t.2.clk = false then
    if t.2.sel = false then (t.1, { t.2 with clk := true, sh := shiftIn t.2.sh t.2.din, cnt := t.2.cnt + 1 })
    else (Memory.allUnknown, { t.2 with clk := true })
  else (t.1, { t.2 with clk := v })

/-- A frame ends well formed: 16 pulses, not marked bad, the clock low (R46, R47). -/
def Rx.wellFormedFrame (r : Rx) : Bool := decide (r.cnt = 16) && !r.bad && !r.clk

/-- The address byte of the bits shifted in, `sh[15:8]` (R47). -/
def Rx.address (r : Rx) : Byte := r.sh.extractLsb' 8 8

/-- The data byte of the bits shifted in, `sh[7:0]` (R47). -/
def Rx.data (r : Rx) : Byte := r.sh.extractLsb' 0 8

/-- `W(CS, v)` (R46 to R48): a fall starts a frame; a rise ends it, writing one register or making all of them `⊥`. -/
def onCs (v : Level) (t : Target) : Target :=
  match v with
  | false =>
    if t.2.sel = true then (t.1, { t.2 with sel := false, sh := 0#16, cnt := 0, bad := t.2.clk }) else t
  | true =>
    if t.2.sel = false then
      (if t.2.wellFormedFrame then memWrite t.1 t.2.address t.2.data else Memory.allUnknown, { t.2 with sel := true })
    else t

/-- `RST` (R49): inside a frame every register becomes `⊥`; in every case `RX` takes its reset value. -/
def onRst (t : Target) : Target := (if t.2.sel = false then Memory.allUnknown else t.1, Rx.reset)

/-- What one event does to the target as the reference receiver sees it (R46 to R49). -/
def observe (e : Event) (t : Target) : Target :=
  match e with
  | .write .din v => onDin v t
  | .write .clk v => onClk v t
  | .write .cs v => onCs v t
  | .rst => onRst t

/-- The target after a sequence of events. -/
def observeAll (es : List Event) (t : Target) : Target := es.foldl (fun t e => observe e t) t

/-- The reference receiver as R44 has it: a function from `TRACE` to `(REG, RX)`, from the reset values of R38. -/
def receive (trace : List Event) : Target := observeAll trace (Memory.allUnknown, Rx.reset)

end Sys2Proof.Machine
end

