-- ==== Sys2Proof/Config.lean ====
section
/-! DEFINITION. The parameters of one instance of S7X (spec/00_scope.md R6, R164): the fixed ones with the value the source gives,
the open ones as constants with no body, so that no proof can see what they are. Nothing changes them while the machine runs. -/

namespace Sys2Proof.Config

/-- `DIGIT_FONT`: ten entries of 7 bits, the values not in the source (R116, D9). -/
opaque digitFont : Fin 10 → BitVec 7

/-- `ASCII_FONT` before its one stated entry is put in: 128 entries of 7 bits, the values not in the source (R117, D9).
The table the machine reads is `Machine.romAscii`, whose entry 0x20 is 0 as R117 says. -/
opaque asciiFontRaw : BitVec 7 → BitVec 7

/-- `TEST_PATTERN`, the byte for position `k + 1` from the left; not in the source (R133, D11). -/
opaque testPattern : Fin 8 → Byte

/-- `SEGMAP`: which segment each of the bits 0 to 6 lights; not in the source (R122, D10). No instruction reads it. -/
opaque segMap : Fin 7 → Segment

/-- `PINMAP`: the host's name (here a number) of each pin; not in the source (R6). No instruction reads it. -/
opaque pinMap : Pin → Nat

/-- What a host's byte addition `p + 128` gives when `p` is 128 or more. R75 gives that addition for `p < 128` only, so
this is a free value (log 14). -/
opaque carriedPoint : Byte → Byte

/-- The constraint R6 puts on `PINMAP`: the three pins are distinct. -/
def PinsDistinct : Prop := Function.Injective pinMap

/-- The constraint R6 puts on `SEGMAP`: it is a bijection. -/
def SegmentsBijective : Prop := Function.Bijective segMap

/-- `DISPLAY_MODE`, fixed (R6, R113, D18). -/
def displayMode : DisplayMode := .noDecode

/-- `NDIGITS`, fixed (R6). -/
def nDigits : Nat := 8

/-- `FRAME_BITS`, fixed (R6). -/
def frameBits : Nat := 16

/-- `COORD_DP_INDEX`, counted from 0 (R6, D15). -/
def coordPointIndex : Nat := 4

end Sys2Proof.Config
end

