-- ==== Sys2Proof/Machine/Operands.lean ====
section
/-! DEFINITION. Operand forms: bit selection, font reads, segment bytes, digit extraction, decimal strings, positions
(spec/30_encoding.md R64 to R66, R75; spec/20_memory.md R50, R58; spec/44_display_ops.md R131). -/

namespace Sys2Proof.Machine

/-- Which bit of the byte pulse `i` of the serializer carries (R64, R80): bit `7 - i` or bit `i`. -/
def serialBit (o : BitOrder) (b : Byte) (i : Nat) : Level :=
  match o with
  | .msb => b.getLsbD (7 - i)
  | .lsb => b.getLsbD i

/-- The bit order held in `HA` while a `SHIFT8` runs: its bit 0 (R14, R82). -/
def orderOfHolding (ha : Byte) : BitOrder := orderOfBit (ha.getLsbD 0)

/-- `zext_8(o)`, the value `Issue` loads into `HA` for a `SHIFT8` (R18). -/
def holdingOfOrder (o : BitOrder) : Byte := BitVec.setWidth 8 (BitVec.ofBool (bitOfOrder o))

/-- `RomRead(ASCII_FONT, c)` (R58, R117): entry 0x20, the space, is blank. -/
def romAscii (c : BitVec 7) : BitVec 7 := if c = 0x20#7 then 0#7 else Config.asciiFontRaw c

/-- The result of `ENCD d`, the source's `encodeDigit` (R118): the digit font's pattern zero-extended, blank above 9 (D8; log 8). -/
def digitPattern (d : Byte) : Byte :=
  if h : d.toNat < 10 then (Config.digitFont ⟨d.toNat, h⟩).setWidth 8 else 0x00#8

/-- The result of `ENCC x`, the source's `encodeChar` (R65, R119): `(x & 0x80) | ASCII_FONT[x & 0x7F]`. -/
def charPattern (x : Byte) : Byte := (x &&& 0x80#8) ||| (romAscii ((x &&& 0x7F#8).setWidth 7)).setWidth 8

/-- Adding the decimal point to a byte, `p + 128` (R65). For `p` of 128 or more R75 gives no result: a free value (log 14). -/
def addPoint (p : Byte) : Byte := if p.toNat < 128 then p + 128#8 else Config.carriedPoint p

/-- The tens digit of a two-digit field (R66). -/
def tens (v : Nat) : Nat := v / 10

/-- The units digit of a field (R66). -/
def units (v : Nat) : Nat := v % 10

/-- The digits of a two-digit field, each with whether the decimal point follows it (R128, R130). -/
def fieldDigits (v : Nat) (pointAfter : Bool) : List (Nat × Bool) := [(tens v, false), (units v, pointAfter)]

/-- The four digits of a year (R66, D14), none with a decimal point (R130). -/
def yearDigits (y : Nat) : List (Nat × Bool) :=
  [(y / 1000, false), (y / 100 % 10, false), (y / 10 % 10, false), (y % 10, false)]

/-- The register address of the physical digit at position `k` from the left, `k` = 1..8 (R50). -/
def addrOfPosition (k : Nat) : Byte := BitVec.ofNat 8 (9 - k)

/-- The positions in the order the display operations write them: leftmost first (D12). -/
def positions : List Nat := [1, 2, 3, 4, 5, 6, 7, 8]

/-- The decimal digits of `n` as bytes `0x30 + digit`, most significant first, put before `acc`; `fuel` bounds their number. -/
def decDigits : Nat → Nat → List Byte → List Byte
  | 0, _, acc => acc
  | fuel + 1, n, acc =>
    let acc' := BitVec.ofNat 8 (0x30 + n % 10) :: acc
    if n / 10 = 0 then acc' else decDigits fuel (n / 10) acc'

/-- The decimal digits of a natural number without leading zeros, "0" for 0 (R131). It has no more digits than bits. -/
def decNat (n : Nat) : List Byte := decDigits (n.log2 + 1) n []

/-- `dec(n)` of R131: plain decimal, a leading `-` (0x2D) for a negative number. -/
def dec (n : Int) : List Byte := if n < 0 then 0x2D#8 :: decNat n.natAbs else decNat n.natAbs

/-- The character `TEXT` takes for position `k` from the left: the one at that offset, else a space (R126). -/
def charAt (t : List Byte) (k : Nat) : Byte := t.getD (k - 1) 0x20#8

/-- The text `COORD` composes (R131): the label, padding, the digits, and the decimal point on the character at index 4. -/
def coordText (c : Byte) (s : List Byte) : List Byte :=
  ([c] ++ List.replicate (7 - s.length) 0x20#8 ++ s).modify Config.coordPointIndex addPoint

end Sys2Proof.Machine
end

