-- ==== Sys2Proof/Machine/Sequences.lean ====
section
/-! DEFINITION. The pin-write sequences `PW(op)` of the two pin-writing primitives (spec/40_serializer.md R81, R82; spec/41_framer.md
R90, R91). -/

namespace Sys2Proof.Machine

/-- One pin write `(p, v)`. -/
abbrev PinWrite := Pin × Level

/-- One bit on the wire: the data line, then the clock high, then low (R80, R81, R83). -/
def pulse (v : Level) : List PinWrite := [(.din, v), (.clk, true), (.clk, false)]

/-- `PW(SHIFT8(o, b))` by the procedure of R81. -/
def pwShift8 (o : BitOrder) (b : Byte) : List PinWrite :=
  [0, 1, 2, 3, 4, 5, 6, 7].flatMap fun i => pulse (serialBit o b i)

/-- `PW(WRREG(a, d))` by the procedure of R90: chip-select low, the address byte, the data byte, chip-select high. -/
def pwWrreg (a d : Byte) : List PinWrite :=
  [(.cs, false)] ++ pwShift8 .msb a ++ pwShift8 .msb d ++ [(.cs, true)]

/-- `PWseq(OP, HA, HB)`, the sequence the micro-sequencer walks (R19, R82, R91). -/
def pwSeq (op : OpKind) (ha hb : Byte) : List PinWrite :=
  match op with
  | .shift8 => pwShift8 (orderOfHolding ha) hb
  | .wrreg => pwWrreg ha hb

/-- The event a pin write leaves in `TRACE` (R12). -/
def eventOf (w : PinWrite) : Event := .write w.1 w.2

end Sys2Proof.Machine
end

