-- ==== Sys2Proof/Machine/Ops.lean ====
section
/-! DEFINITION. The shared operations: a pin write, accepting an operation, one step of the micro-sequencer, and reset
(spec/10_state.md R12, R18, R19; spec/70_reset_and_hazards.md R160). S7X takes no exception and returns from none (R140, R146, R147), so
there is no operation for either; reset is the one event that cuts an operation short (R141, R161). -/

namespace Sys2Proof.Machine

/-- The level of a pin (R8). -/
def State.pin (s : State) : Pin → Level
  | .din => s.din
  | .clk => s.clk
  | .cs => s.cs

/-- `pin[p] <- v` (R11). -/
def State.setPin (s : State) (p : Pin) (v : Level) : State :=
  match p with
  | .din => { s with din := v }
  | .clk => { s with clk := v }
  | .cs => { s with cs := v }

/-- An event happens: it is appended to `TRACE` (R13), and the reference receiver sees it (R44; log 10). -/
def State.record (s : State) (e : Event) : State :=
  { s with
    trace := s.trace ++ [e]
    reg := (observe e (s.reg, s.rx)).1
    rx := (observe e (s.reg, s.rx)).2 }

/-- `PinWrite(p, v)` (R12): performed and recorded also when the pin already has that level (D26). -/
def pinWrite (p : Pin) (v : Level) (s : State) : State := (s.setPin p v).record (.write p v)

/-- `RES <- b` (R15). -/
def State.setRes (s : State) (b : Byte) : State := { s with res := b }

/-- The holding registers are loaded and the sequencer starts (R18). -/
def State.load (s : State) (k : OpKind) (ha hb : Byte) : State :=
  { s with op := k, ha := ha, hb := hb, upc := 0#6, busy := busyAfterIssue }

/-- `UPC` and `BUSY` after a pin write of a sequence of this length (R19). -/
def State.advance (s : State) (length : Nat) : State :=
  { s with upc := s.upc + 1#6, busy := busyAfterWrite (s.upc + 1#6) length s.busy }

/-- `Issue` of a pin-writing primitive (R18): no pin is written yet. While `BUSY = 1` the port is not ready (log 16). -/
def issuePinOp (k : OpKind) (ha hb : Byte) (s : State) : Host.Outcome State Fault Refusal :=
  if portReady s then .next (s.load k ha hb) else .refused .portNotReady

/-- `Issue` of an encoder primitive (R18): it completes within `Issue`, writing `RES` alone. -/
def issueEncode (b : Byte) (s : State) : Host.Outcome State Fault Refusal :=
  if portReady s then .next (s.setRes b) else .refused .portNotReady

/-- `Issue(WRREG(a, d))` (R18), shared by `WRREG` and the thirteen frames. -/
def issueFrame (a d : Byte) (s : State) : Host.Outcome State Fault Refusal := issuePinOp .wrreg a d s

/-- `Step` (R19): one pin write of the running operation. Its caller has seen `BUSY = 1`. -/
def microStep (s : State) : Host.Outcome State Fault Refusal :=
  match (pwSeq s.op s.ha s.hb)[s.upc.toNat]? with
  | some w => .next ((pinWrite w.1 w.2 s).advance (pwSeq s.op s.ha s.hb).length)
  | none => .fault .sequencerPastEnd

/-- `Reset` (R160): S7X takes its reset values, `RST` is appended to `TRACE` and the receiver sees it (R49, R161, R162). The target's
registers and the environment's inputs are not S7X's and are not reset. -/
def resetOp (s : State) : State :=
  ({ s with
      din := false, clk := false, cs := true
      busy := false, upc := 0#6, op := .wrreg, ha := 0x00#8, hb := 0x00#8, res := 0x00#8 }).record .rst

end Sys2Proof.Machine
end

