-- ==== Sys2Proof/Machine/Encoder.lean ====
section
/-! DEFINITION. The meanings of `ENCD` and `ENCC` (spec/43_encoder.md R118, R119): each writes `RES` and nothing else. -/

namespace Sys2Proof.Machine

/-- `ENCD d` (R118). -/
def execEncd (d : Byte) (s : State) : Host.Outcome State Fault Refusal := issueEncode (digitPattern d) s

/-- `ENCC x` (R119). -/
def execEncc (x : Byte) (s : State) : Host.Outcome State Fault Refusal := issueEncode (charPattern x) s

end Sys2Proof.Machine
end

