-- ==== Sys2Proof/Machine/Framer.lean ====
section
/-! DEFINITION. The meanings of `WRREG` and the thirteen frames (spec/41_framer.md R90, R95 to R107). Each is accepted here (R18); its 50
pin writes are the steps that follow (R19, R91; log 3). -/

namespace Sys2Proof.Machine

/-- `WRREG a, d` (R90): any address byte is sent as given (R68). -/
def execWrreg (a d : Byte) (s : State) : Host.Outcome State Fault Refusal := issueFrame a d s

/-- `WR.DIG0 d` = `WRREG(0x01, d)` (R95). -/
def execWrDig0 (d : Byte) (s : State) : Host.Outcome State Fault Refusal := issueFrame 0x01#8 d s

/-- `WR.DIG1 d` = `WRREG(0x02, d)` (R96). -/
def execWrDig1 (d : Byte) (s : State) : Host.Outcome State Fault Refusal := issueFrame 0x02#8 d s

/-- `WR.DIG2 d` = `WRREG(0x03, d)` (R97). -/
def execWrDig2 (d : Byte) (s : State) : Host.Outcome State Fault Refusal := issueFrame 0x03#8 d s

/-- `WR.DIG3 d` = `WRREG(0x04, d)` (R98). -/
def execWrDig3 (d : Byte) (s : State) : Host.Outcome State Fault Refusal := issueFrame 0x04#8 d s

/-- `WR.DIG4 d` = `WRREG(0x05, d)` (R99). -/
def execWrDig4 (d : Byte) (s : State) : Host.Outcome State Fault Refusal := issueFrame 0x05#8 d s

/-- `WR.DIG5 d` = `WRREG(0x06, d)` (R100). -/
def execWrDig5 (d : Byte) (s : State) : Host.Outcome State Fault Refusal := issueFrame 0x06#8 d s

/-- `WR.DIG6 d` = `WRREG(0x07, d)` (R101). -/
def execWrDig6 (d : Byte) (s : State) : Host.Outcome State Fault Refusal := issueFrame 0x07#8 d s

/-- `WR.DIG7 d` = `WRREG(0x08, d)` (R102). -/
def execWrDig7 (d : Byte) (s : State) : Host.Outcome State Fault Refusal := issueFrame 0x08#8 d s

/-- `WR.DECODE d` = `WRREG(0x09, d)` (R103). -/
def execWrDecode (d : Byte) (s : State) : Host.Outcome State Fault Refusal := issueFrame 0x09#8 d s

/-- `WR.INTENS d` = `WRREG(0x0A, d)` (R104). -/
def execWrIntens (d : Byte) (s : State) : Host.Outcome State Fault Refusal := issueFrame 0x0A#8 d s

/-- `WR.SCAN d` = `WRREG(0x0B, d)` (R105). -/
def execWrScan (d : Byte) (s : State) : Host.Outcome State Fault Refusal := issueFrame 0x0B#8 d s

/-- `WR.SHDN d` = `WRREG(0x0C, d)` (R106). -/
def execWrShdn (d : Byte) (s : State) : Host.Outcome State Fault Refusal := issueFrame 0x0C#8 d s

/-- `WR.DTEST d` = `WRREG(0x0F, d)` (R107). -/
def execWrDtest (d : Byte) (s : State) : Host.Outcome State Fault Refusal := issueFrame 0x0F#8 d s

end Sys2Proof.Machine
end

