-- ==== Sys2Proof/Machine/Serializer.lean ====
section
/-! DEFINITION. The meaning of `SHIFT8` (spec/40_serializer.md R81). -/

namespace Sys2Proof.Machine

/-- `SHIFT8 o, b` is accepted (R18); its 24 pin writes are the steps that follow (R19, R82; log 3). -/
def execShift8 (o : BitOrder) (b : Byte) (s : State) : Host.Outcome State Fault Refusal :=
  issuePinOp .shift8 (holdingOfOrder o) b s

end Sys2Proof.Machine
end

