-- ==== Sys2Proof/Machine/Dispatch.lean ====
section
/-! DEFINITION. Which meaning each instruction has: one arm per constructor of Instr. -/

namespace Sys2Proof.Machine

def exec (i : Instr) (s : State) : Host.Outcome State Fault Refusal :=
  match i with
  | .shift8 o b => Sys2Proof.Machine.execShift8 o b s
  | .wrreg a d => Sys2Proof.Machine.execWrreg a d s
  | .encd d => Sys2Proof.Machine.execEncd d s
  | .encc x => Sys2Proof.Machine.execEncc x s
  | .wrDig0 d => Sys2Proof.Machine.execWrDig0 d s
  | .wrDig1 d => Sys2Proof.Machine.execWrDig1 d s
  | .wrDig2 d => Sys2Proof.Machine.execWrDig2 d s
  | .wrDig3 d => Sys2Proof.Machine.execWrDig3 d s
  | .wrDig4 d => Sys2Proof.Machine.execWrDig4 d s
  | .wrDig5 d => Sys2Proof.Machine.execWrDig5 d s
  | .wrDig6 d => Sys2Proof.Machine.execWrDig6 d s
  | .wrDig7 d => Sys2Proof.Machine.execWrDig7 d s
  | .wrDecode d => Sys2Proof.Machine.execWrDecode d s
  | .wrIntens d => Sys2Proof.Machine.execWrIntens d s
  | .wrScan d => Sys2Proof.Machine.execWrScan d s
  | .wrShdn d => Sys2Proof.Machine.execWrShdn d s
  | .wrDtest d => Sys2Proof.Machine.execWrDtest d s

end Sys2Proof.Machine
end

