-- ==== Sys2Proof/Machine/Macros.lean ====
section
/-! DEFINITION. The expansions of the eight macro operations into primitives the host executes one after the other
(spec/30_encoding.md R73; spec/42_initializer.md R110; spec/44_display_ops.md R125 to R133). -/

namespace Sys2Proof.Machine

/-- The host presents `WRREG a, d`. -/
def presentFrame (a d : Byte) : HostAct := .present (encode (.wrreg a d))

/-- `INIT` (R110): display test off, normal operation, scan limit 8 digits, intensity maximum, no decode, in this order. The BCD
decode variant is not admitted (R113). -/
def expandInit : DisplayMode → Except Refusal (List HostAct)
  | .noDecode => .ok
      [presentFrame 0x0F#8 0x00#8, presentFrame 0x0C#8 0x01#8, presentFrame 0x0B#8 0x07#8,
       presentFrame 0x0A#8 0x0F#8, presentFrame 0x09#8 0x00#8]
  | .bcdDecode => .error .bcdDecodeNotAdmitted

/-- Eight ready segment bytes, the one for position 1 first (R125, D12). -/
def expandDisplay (segs : List Byte) : List HostAct :=
  (positions.zip segs).map fun (k, d) => presentFrame (addrOfPosition k) d

/-- `TEXT t` (R126): for each position, encode its character, then write what the encoder left in `RES`. -/
def expandText (t : List Byte) : List HostAct :=
  positions.flatMap fun k => [.present (encode (.encc (charAt t k))), .presentWrreg (.byte (addrOfPosition k)) .res]

/-- Eight `ENCD`, each result taken into a variable of the host with its decimal point added, then `DISPLAY` of the eight
(R128, R130). The host uses its variables `base` to `base + 7`. -/
def expandDigits (base : Nat) (ds : List (Nat × Bool)) : List HostAct :=
  ((ds.zipIdx base).flatMap fun (d, v) => [.present (encode (.encd (BitVec.ofNat 8 d.1))), .takeRes v d.2])
    ++ positions.map fun k => .presentWrreg (.byte (addrOfPosition k)) (.var (base + (k - 1)))

/-- The digits of `TIME h, m, s, x`: decimal points after positions 2, 4 and 6 (R128). -/
def timeDigits (h m s x : Nat) : List (Nat × Bool) :=
  fieldDigits h true ++ fieldDigits m true ++ fieldDigits s true ++ fieldDigits x false

/-- The digits of `DATE day, month, year`: decimal points after positions 2 and 4 (R130). -/
def dateDigits (day month year : Nat) : List (Nat × Bool) :=
  fieldDigits day true ++ fieldDigits month true ++ yearDigits year

/-- `TIME` inside its operand domain (R128, D13). -/
def expandTime (base h m s x : Nat) : Except Refusal (List HostAct) :=
  if h ≤ 255 ∧ m ≤ 255 ∧ s ≤ 255 ∧ x ≤ 255 then .ok (expandDigits base (timeDigits h m s x)) else .error .operandOutOfDomain

/-- `DATE` inside its operand domain (R130, D13). -/
def expandDate (base day month year : Nat) : Except Refusal (List HostAct) :=
  if day ≤ 255 ∧ month ≤ 255 ∧ year ≤ 65535 then .ok (expandDigits base (dateDigits day month year))
  else .error .operandOutOfDomain

/-- `COORD c, n` (R131): compose the text, then `TEXT`; outside the precondition `len(dec(n)) <= 7` refused (U5). -/
def expandCoord (c : Byte) (n : Int) : Except Refusal (List HostAct) :=
  if (dec n).length ≤ 7 then .ok (expandText (coordText c (dec n))) else .error .coordDoesNotFit

/-- `BRIGHT level` (R132): one frame in range, nothing at all out of range; no clamping. -/
def expandBright (level : Int) : List HostAct :=
  if 0 ≤ level ∧ level ≤ 15 then [presentFrame 0x0A#8 (BitVec.ofNat 8 level.toNat)] else []

/-- `TEST` (R133): the fixed pattern to the eight digits, bypassing the encoder; the order is D11. -/
def expandTest : List HostAct :=
  expandDisplay ((List.finRange 8).map Config.testPattern)

/-- The expansion of a macro operation; `base` is the first of the eight variables the host uses for `TIME` and `DATE`. -/
def expand (base : Nat) : MacroOp → Except Refusal (List HostAct)
  | .init => expandInit Config.displayMode
  | .display s1 s2 s3 s4 s5 s6 s7 s8 => .ok (expandDisplay [s1, s2, s3, s4, s5, s6, s7, s8])
  | .text t => .ok (expandText t)
  | .time h m s x => expandTime base h m s x
  | .date day month year => expandDate base day month year
  | .coord c n => expandCoord c n
  | .bright level => .ok (expandBright level)
  | .test => .ok expandTest

end Sys2Proof.Machine
end

