-- ==== Sys2Proof/Machine/Port.lean ====
section
/-! DEFINITION. What the host and the environment do to the machine, and `Exec`, an operation run to its end
(spec/10_state.md R18 to R20; spec/70_reset_and_hazards.md R160, R179, R180). -/

namespace Sys2Proof.Machine

/-- The host's next action is taken off its list. -/
def State.withHost (s : State) (rest : List HostAct) : State := { s with host := rest }

/-- The host's variable `v` takes the byte `b` (log 13). -/
def State.setVar (s : State) (v : Nat) (b : Byte) : State := { s with vars := s.vars.write v b }

/-- The countdowns of the reset input (log 2). -/
def State.withResets (s : State) (r : List Nat) : State := { s with resets := r }

/-- A word is presented on the operation port: the instruction it decodes to is executed; a reserved word is refused (R69, R180;
log 4). -/
def presentWord (w : PortWord) (s : State) : Host.Outcome State Fault Refusal :=
  match decode w with
  | .op i => exec i s
  | .rejected r => .refused (.reservedWord r)

/-- The byte an operand of `WRREG` stands for when it is presented (R72); none for a variable the host has not filled. -/
def State.operand (s : State) : WrregOperand → Option Byte
  | .byte b => some b
  | .res => some s.res
  | .var v => s.vars.read v

/-- The host presents `WRREG` with these operands, both read at this moment (R72). -/
def presentWrreg (a d : Option Byte) (s : State) : Host.Outcome State Fault Refusal :=
  match a, d with
  | some a, some d => presentWord (encode (.wrreg a d)) s
  | none, _ | _, none => .refused .hostVariableUnset

/-- The host's next action, while `BUSY = 0`. With none left the host waits (R179). -/
def hostMove (s : State) : Host.Outcome State Fault Refusal :=
  match s.host with
  | [] => .next s
  | .present w :: rest => presentWord w (s.withHost rest)
  | .presentWrreg a d :: rest => presentWrreg (s.operand a) (s.operand d) (s.withHost rest)
  | .takeRes v dp :: rest => .next ((s.withHost rest).setVar v (if dp then addPoint s.res else s.res))
  | .call m :: rest =>
    match expand 0 m with
    | .ok acts => .next (s.withHost (acts ++ rest))
    | .error r => .refused r
  | .wait :: rest => .next (s.withHost rest)

/-- One move of S7X or its host: `Step` while `BUSY = 1`, else the host's next action (R145, R179). -/
def move (s : State) : Host.Outcome State Fault Refusal := if s.busy then microStep s else hostMove s

/-- The reset input fires now. -/
def resetDue : List Nat → Bool
  | 0 :: _ => true
  | _ => false

/-- The countdowns after a transition that was no reset. -/
def tickResets : List Nat → List Nat
  | n :: rest => (n - 1) :: rest
  | [] => []

/-- One transition of the whole system: a due reset wins over everything (R145, R160), else one move. -/
def transition (s : State) : Host.Outcome State Fault Refusal :=
  if resetDue s.resets then .next (resetOp (s.withResets s.resets.tail)) else move (s.withResets (tickResets s.resets))

/-- `k` `Step`s of the micro-sequencer (R19). -/
def microSteps : Nat → State → Host.Outcome State Fault Refusal
  | 0, s => .next s
  | k + 1, s =>
    match microStep s with
    | .next t => microSteps k t
    | .fault f => .fault f
    | .refused r => .refused r

/-- `Step` repeated until `BUSY = 0` (R20); `fuel` is at least the number of pin writes left. -/
def finish : Nat → State → Host.Outcome State Fault Refusal
  | 0, s => .next s
  | fuel + 1, s =>
    if s.busy then
      match microStep s with
      | .next t => finish fuel t
      | .fault f => .fault f
      | .refused r => .refused r
    else .next s

/-- `Exec(c)` (R20): `Issue` of the operation, then `Step` until `BUSY = 0`. No operation has more than 50 pin writes (R93). -/
def execWhole (i : Instr) (s : State) : Host.Outcome State Fault Refusal :=
  match exec i s with
  | .next t => finish 50 t
  | .fault f => .fault f
  | .refused r => .refused r

end Sys2Proof.Machine
end

