-- ==== Sys2Proof/Machine/Step.lean ====
section
/-! DEFINITION. One step of the machine, and a state whose very next step runs a given instruction. -/

namespace Sys2Proof.Machine

/-- One step: a due reset, else one pin write of the running operation, else the host's next action (R145, R179). -/
def step (s : State) : Host.Outcome State Fault Refusal := transition s

/-- `s` with the instruction whose bits are `w` presented next by the host: S7X fetches no instruction from any memory (R17, R56),
so the place step takes its next instruction from is the head of the host's list (log 1). A running operation and a reset that is
due would come first, so neither is left. -/
def State.withFetchWord (s : State) (nbits w : Nat) : State :=
  { s with
    busy := false
    host := .present (portWordOfBits nbits w) :: s.host
    resets := s.resets.dropWhile (· == 0) }

end Sys2Proof.Machine
end

