-- ==== Sys2Proof/Machine/Target.lean ====
section
/-! DEFINITION. The meaning the spec gives the target's thirteen registers (spec/10_state.md R23 to R29), as views of `REG`. An entry that is `⊥`
or holds a value outside its register's list has no meaning (U3, U4; log 22). What a digit shows in shutdown, in display test or beyond
the scan limit is not in the source: the views of a digit's byte do not look at those registers (DESIGN CHOICE, log 24). -/

namespace Sys2Proof.Machine

/-- The thirteen registers of the address map (R23). -/
inductive TargetReg where
  | digit (n : Fin 8)
  | decodeMode
  | intensity
  | scanLimit
  | shutdown
  | displayTest
  deriving DecidableEq, Repr

/-- The address of a register: Digit `n` is at `0x01 + n` (R23, R24). -/
def TargetReg.addr : TargetReg → Byte
  | .digit n => BitVec.ofNat 8 (n.val + 1)
  | .decodeMode => 0x09#8
  | .intensity => 0x0A#8
  | .scanLimit => 0x0B#8
  | .shutdown => 0x0C#8
  | .displayTest => 0x0F#8

/-- The register at an address, if the map lists one (R23, R68). -/
def TargetReg.ofAddr (a : Byte) : Option TargetReg :=
  if h : 1 ≤ a.toNat ∧ a.toNat ≤ 8 then some (.digit ⟨a.toNat - 1, by omega⟩)
  else if a = 0x09#8 then some .decodeMode
  else if a = 0x0A#8 then some .intensity
  else if a = 0x0B#8 then some .scanLimit
  else if a = 0x0C#8 then some .shutdown
  else if a = 0x0F#8 then some .displayTest
  else none

/-- The values the map lists for a register (R23 to R29). -/
def TargetReg.listed (r : TargetReg) (v : Byte) : Bool :=
  match r with
  | .digit _ => true
  | .decodeMode => v == 0x00#8 || v == 0xFF#8
  | .intensity => decide (v.toNat ≤ 0x0F)
  | .scanLimit => decide (v.toNat ≤ 0x07)
  | .shutdown => v == 0x00#8 || v == 0x01#8
  | .displayTest => v == 0x00#8 || v == 0x01#8

/-- What `REG` holds for a register, `none` for `⊥`. -/
def State.target (s : State) (r : TargetReg) : Option Byte := s.reg.read r.addr.toNat

/-- The value of a register where the spec gives it a meaning. -/
def State.meaningful (s : State) (r : TargetReg) : Option Byte := (s.target r).filter r.listed

/-- Decode mode: 0x00 is no decode, 0xFF full BCD decode (R25). -/
def State.decodeMode (s : State) : Option DisplayMode :=
  (s.meaningful .decodeMode).map fun v => if v = 0x00#8 then .noDecode else .bcdDecode

/-- The brightness level, 0 to 15 (R26). -/
def State.brightness (s : State) : Option Nat := (s.meaningful .intensity).map BitVec.toNat

/-- How many digits are driven: the register's value plus one (R27). -/
def State.digitsDriven (s : State) : Option Nat := (s.meaningful .scanLimit).map fun v => v.toNat + 1

/-- Whether the target is in normal operation; `some false` is shutdown (R28). -/
def State.normalOperation (s : State) : Option Bool := (s.meaningful .shutdown).map fun v => v == 0x01#8

/-- Whether display test is on (R29). -/
def State.displayTestOn (s : State) : Option Bool := (s.meaningful .displayTest).map fun v => v == 0x01#8

/-- Whether the source's own reading of the digits applies (R27 to R29, R165): normal operation, display test off, all eight digits
driven. In every other configuration, an unknown one too, what a digit shows is not in the source (N12; log 24). DESIGN CHOICE (log 25): it
looks at what the registers hold now and not at what they held before, so that after a shutdown has ended the digits' old bytes count as
shown again, where what survives shutdown is not in the source (R28, R150, N12). -/
def State.readingApplies (s : State) : Bool :=
  s.normalOperation == some true && s.displayTestOn == some false && s.digitsDriven == some Config.nDigits

/-- Whether a digit's decimal point is lit, as its segment byte alone has it: bit 7 (R24). DESIGN CHOICE (log 24): it answers from the byte
whatever the shutdown, display-test and scan-limit registers hold, where the source does not say what shows (R27 to R29, N12). -/
def State.pointLit (s : State) (n : Fin 8) : Option Bool := (s.target (.digit n)).map fun v => v.getLsbD 7

/-- Whether bit `i` of a digit's pattern lights its segment: one bit per segment, and only with decode mode off (R24, R123). DESIGN CHOICE
(log 24): otherwise it answers from the byte alone, as `State.pointLit` does. -/
def State.patternBit (s : State) (n : Fin 8) (i : Fin 7) : Option Bool :=
  if s.decodeMode = some .noDecode then (s.target (.digit n)).map fun v => v.getLsbD i.val else none

/-- Whether a named segment of a digit is lit if bit `i` lights segment `m i` (R24, R122). DESIGN CHOICE (log 24): it answers from the byte
and the decode mode alone, as `State.patternBit` does. -/
def State.segmentLitBy (m : Fin 7 → Segment) (s : State) (n : Fin 8) (seg : Segment) : Option Bool :=
  ((List.finRange 7).find? fun i => decide (m i = seg)).bind fun i => s.patternBit n i

/-- Whether a named segment of a digit is lit, by the open map `SEGMAP` (R24, R122). DESIGN CHOICE (log 24): as `State.segmentLitBy`. -/
def State.segmentLit (s : State) (n : Fin 8) (seg : Segment) : Option Bool := s.segmentLitBy Config.segMap n seg

/-- The digit at position `k + 1` from the left: position `p` is Digit `8 - p` (R50). -/
def digitAtPosition (k : Fin 8) : Fin 8 := ⟨7 - k.val, by omega⟩

/-- The level on the host pin with this name, by the open map `PINMAP` (R6, R11). -/
def State.hostPin (s : State) (name : Nat) : Option Level :=
  ([Pin.din, Pin.clk, Pin.cs].find? fun p => decide (Config.pinMap p = name)).map s.pin

end Sys2Proof.Machine
end

