-- ==== Sys2Proof/Safety.lean ====
section
/-! DEFINITION. What claims about S7X speak of: the invariant of the machine, a wire at rest, a configured target, and operations
whose effect on the target the spec gives. -/

namespace Sys2Proof.Machine

/-- `k` steps, stopping at the first fault or refusal. It is `Host.Core.run` of this machine (`Laws/Step.lean`). -/
def run : Nat → State → Host.Outcome State Fault Refusal
  | 0, s => .next s
  | k + 1, s =>
    match step s with
    | .next t => run k t
    | .fault f => .fault f
    | .refused r => .refused r

/-- The level a pin has after a sequence of pin writes, from the level `v` before it. -/
def levelAfter (p : Pin) (v : Level) (ws : List PinWrite) : Level := ws.foldl (fun l w => if w.1 = p then w.2 else l) v

/-- The pin writes of the current operation already performed (R17). -/
def State.performed (s : State) : List PinWrite := (pwSeq s.op s.ha s.hb).take s.upc.toNat

/-- The invariant of the machine. -/
structure Inv (s : State) : Prop where
  /-- The register file keeps its canonical form. -/
  regWf : s.reg.wf = true
  /-- It lists addresses of the 8-bit register space only (R40). -/
  regSpace : s.reg.inRegisterSpace = true
  /-- The host's variables keep the same canonical form. -/
  varsWf : s.vars.wf = true
  /-- `(REG, RX)` is what the reference receiver reads from `TRACE` (R44). -/
  received : receive s.trace = (s.reg, s.rx)
  /-- The receiver's view agrees with the pins (R39). -/
  rxSel : s.rx.sel = s.cs
  rxClk : s.rx.clk = s.clk
  rxDin : s.rx.din = s.din
  /-- `HA` bits 7:1 are 0 for a `SHIFT8` (R14). -/
  holding : s.op = .shift8 → s.ha.extractLsb' 1 7 = 0#7
  /-- `UPC` never passes the sequence's end, and is short of it while `BUSY = 1` (R17). -/
  upcRange : s.upc.toNat ≤ (pwSeq s.op s.ha s.hb).length
  upcBusy : s.busy = true → s.upc.toNat < (pwSeq s.op s.ha s.hb).length
  /-- Between operations chip-select is high and the clock low (R22 a, b). -/
  idleCs : s.busy = false → s.cs = true
  idleClk : s.busy = false → s.clk = false
  /-- Chip-select and clock stand where the pin writes performed so far left them. -/
  csTrack : s.cs = levelAfter .cs true s.performed
  clkTrack : s.clk = levelAfter .clk false s.performed
  /-- `DIN` holds the last bit they put on it, or the level from before if they put none (R22 c). -/
  dinTrack : ∃ v, s.din = levelAfter .din v s.performed
  /-- Inside a frame the receiver holds the bits sent so far, and has seen nothing wrong (R83, R92). -/
  frameTrack : s.op = .wrreg → s.upc ≠ 0#6 →
    let r := (observeAll (s.performed.map eventOf) (Memory.allUnknown, Rx.reset)).2
    s.rx.sh = r.sh ∧ s.rx.cnt = r.cnt ∧ s.rx.bad = r.bad

/-- The operation port is ready and the wire is at rest: what R92 asks of the state an operation starts in. -/
structure AtRest (s : State) : Prop where
  idle : s.busy = false
  csHigh : s.cs = true
  clkLow : s.clk = false
  rxSel : s.rx.sel = true
  rxClk : s.rx.clk = false

/-- The five configuration registers hold what `INIT` writes (R110, R165). -/
structure Configured (s : State) : Prop where
  testOff : s.target .displayTest = some 0x00#8
  normal : s.target .shutdown = some 0x01#8
  eightDigits : s.target .scanLimit = some 0x07#8
  maximum : s.target .intensity = some 0x0F#8
  noDecode : s.target .decodeMode = some 0x00#8

/-- Whether the spec gives the operation an effect on the target: a listed value to a mapped register (R68, U3, U4), an `ENCD` inside
its range (U2); a bare `SHIFT8` has none (R85, U8). Every operation runs all the same. -/
def documented : Instr → Bool
  | .shift8 _ _ => false
  | .wrreg a d => ((TargetReg.ofAddr a).map fun r => r.listed d).getD false
  | .encd d => decide (d.toNat ≤ 9)
  | .encc _ => true
  | .wrDig0 _ | .wrDig1 _ | .wrDig2 _ | .wrDig3 _ | .wrDig4 _ | .wrDig5 _ | .wrDig6 _ | .wrDig7 _ => true
  | .wrDecode d => TargetReg.decodeMode.listed d
  | .wrIntens d => TargetReg.intensity.listed d
  | .wrScan d => TargetReg.scanLimit.listed d
  | .wrShdn d => TargetReg.shutdown.listed d
  | .wrDtest d => TargetReg.displayTest.listed d

end Sys2Proof.Machine

/-- The named hypothesis of R117 that the character font agrees with the digit font on the ten digit characters. The spec does not
impose it. -/
def Sys2Proof.FontsAgreeOnDigits : Prop :=
  ∀ d : Fin 10, Sys2Proof.Machine.romAscii (BitVec.ofNat 7 (0x30 + d.val)) = Sys2Proof.Config.digitFont d
end

