-- ==== Sys2Proof/Certificates/Slice0/Obligations.lean ====
section
/-! DEFINITION. The statements for the provers, each with the rule of spec/ it formalises. The helper definitions of the first part are
written from the spec's closed forms and tables, not from the definitions the machine runs. -/

namespace Sys2Proof.Claims

open Sys2Proof.Machine

/-- `PW(SHIFT8(o, b))[k]`, the closed form of R82, for `k` = 0..23. -/
def shiftWrite (o : BitOrder) (b : Byte) (k : Nat) : PinWrite :=
  if k % 3 = 0 then
    (.din, match o with
      | .msb => b.getLsbD (7 - k / 3)
      | .lsb => b.getLsbD (k / 3))
  else if k % 3 = 1 then (.clk, true)
  else (.clk, false)

/-- `PW(WRREG(a, d))[k]`, the closed form of R91, for `k` = 0..49. -/
def frameWrite (a d : Byte) (k : Nat) : PinWrite :=
  if k = 0 then (.cs, false)
  else if k = 49 then (.cs, true)
  else if (k - 1) % 3 = 0 then (.din, (a ++ d : BitVec 16).getLsbD (15 - (k - 1) / 3))
  else if (k - 1) % 3 = 1 then (.clk, true)
  else (.clk, false)

/-- What one whole `SHIFT8` appends to `TRACE`. -/
def shiftEvents (o : BitOrder) (b : Byte) : List Event := (List.range 24).map fun k => eventOf (shiftWrite o b k)

/-- What one whole `WRREG` appends to `TRACE`. -/
def frameEvents (a d : Byte) : List Event := (List.range 50).map fun k => eventOf (frameWrite a d k)

/-- The state a whole `WRREG a, d` leaves, begun at rest (R90, R92). -/
def frameDone (a d : Byte) (s : State) : State :=
  { s with
    cs := true, clk := false, din := d.getLsbD 0
    busy := false, op := .wrreg, ha := a, hb := d, upc := 50#6
    trace := s.trace ++ frameEvents a d
    reg := s.reg.write a.toNat d
    rx := { sel := true, clk := false, din := d.getLsbD 0, sh := a ++ d, cnt := 16, bad := false } }

/-- The thirteen named frames with the addresses of R61. -/
def namedFrames : List ((Byte → Instr) × Byte) :=
  [(.wrDig0, 0x01#8), (.wrDig1, 0x02#8), (.wrDig2, 0x03#8), (.wrDig3, 0x04#8), (.wrDig4, 0x05#8), (.wrDig5, 0x06#8),
   (.wrDig6, 0x07#8), (.wrDig7, 0x08#8), (.wrDecode, 0x09#8), (.wrIntens, 0x0A#8), (.wrScan, 0x0B#8), (.wrShdn, 0x0C#8),
   (.wrDtest, 0x0F#8)]

/-- The address map of R23, row by row. -/
def registerTable : List (TargetReg × Byte) :=
  [(.digit 0, 0x01#8), (.digit 1, 0x02#8), (.digit 2, 0x03#8), (.digit 3, 0x04#8), (.digit 4, 0x05#8), (.digit 5, 0x06#8),
   (.digit 6, 0x07#8), (.digit 7, 0x08#8), (.decodeMode, 0x09#8), (.intensity, 0x0A#8), (.scanLimit, 0x0B#8), (.shutdown, 0x0C#8),
   (.displayTest, 0x0F#8)]

/-- The pin write at `UPC` of the running operation, by the closed forms of R82 and R91. -/
def currentWrite (s : State) : PinWrite :=
  match s.op with
  | .shift8 => shiftWrite (if s.ha.getLsbD 0 then .lsb else .msb) s.hb s.upc.toNat
  | .wrreg => frameWrite s.ha s.hb s.upc.toNat

/-- `ENCD(v)` as R118 gives it. -/
def encd (v : Nat) : Byte := if h : v < 10 then (Config.digitFont ⟨v, h⟩).setWidth 8 else 0x00#8

/-- `ENCC(x)` as R119 gives it. -/
def encc (x : Byte) : Byte := (x &&& 0x80#8) ||| (romAscii (x.setWidth 7)).setWidth 8

/-- The frames of a list of (address, data) pairs went out whole, in order, nothing else did, and each wrote its register. -/
def FramesSent (l : List (Byte × Byte)) (s t : State) : Prop :=
  t.trace = s.trace ++ l.flatMap (fun p => frameEvents p.1 p.2) ∧
  t.reg = l.foldl (fun m p => m.write p.1.toNat p.2) s.reg ∧
  AtRest t

/-- The eight digit registers were written once each, leftmost first, with these segment bytes; every other register of the target is
as it was (R136). `segs` at `k` is for position `k + 1` from the left. -/
def DigitsShown (segs : Fin 8 → Byte) (s t : State) : Prop :=
  t.trace = s.trace ++ (List.finRange 8).flatMap (fun k => frameEvents (BitVec.ofNat 8 (8 - k.val)) (segs k)) ∧
  (∀ k : Fin 8, t.reg.read (8 - k.val) = some (segs k)) ∧
  (∀ a : Nat, a = 0 ∨ 8 < a → t.reg.read a = s.reg.read a) ∧
  AtRest t

/-- The host's next action is the call of a macro operation, the wire is at rest and no reset is on its way. -/
structure Calls (m : MacroOp) (rest : List HostAct) (s : State) : Prop where
  atRest : AtRest s
  noReset : s.resets = []
  next : s.host = .call m :: rest

/-- An outcome with the target's side of it left out: what S7X itself and its host can tell apart (R43). -/
def blindToTarget : Host.Outcome State Fault Refusal → Host.Outcome State Fault Refusal
  | .next t => .next { t with reg := [], rx := Rx.reset }
  | .fault f => .fault f
  | .refused r => .refused r

end Sys2Proof.Claims

open Sys2Proof Sys2Proof.Machine Sys2Proof.Claims

/-! ## Reset -/

/-- The state after power-on: the reset values R38 collects. They are the spec's own decision (D6, D17, D25 of 92_eei_decisions.md). -/
def Obligations.ResetHoldsTheStatedValues : Prop :=
  State.reset.cs = true ∧ State.reset.clk = false ∧ State.reset.din = false ∧ State.reset.busy = false ∧
  State.reset.upc = 0#6 ∧ State.reset.op = .wrreg ∧ State.reset.ha = 0x00#8 ∧ State.reset.hb = 0x00#8 ∧
  State.reset.res = 0x00#8 ∧ State.reset.trace = [] ∧ (∀ a : Nat, State.reset.reg.read a = none) ∧
  State.reset.rx = { sel := true, clk := false, din := false, sh := 0#16, cnt := 0, bad := false }

/-- The invariant holds after power-on. -/
def Obligations.InvariantHoldsAtReset : Prop := Inv State.reset

/-- A due reset wins over everything, also while `BUSY = 1` (R145, R160): S7X takes its reset values, `RST` is appended to `TRACE`, the
target's registers are kept outside a frame and all unknown inside one (R49, R161, R162), and the host is untouched. The values
are the spec's decision D6, the target's part D7 and D17; the countdown of the reset input is the model's (log 2). -/
def Obligations.DueResetTakesTheResetValues : Prop :=
  ∀ (s : State) (rest : List Nat), s.resets = 0 :: rest →
    step s = .next
      { s with
        cs := true, clk := false, din := false
        busy := false, upc := 0#6, op := .wrreg, ha := 0x00#8, hb := 0x00#8, res := 0x00#8
        trace := s.trace ++ [.rst]
        reg := if s.rx.sel = false then [] else s.reg
        rx := { sel := true, clk := false, din := false, sh := 0#16, cnt := 0, bad := false }
        resets := rest }

/-- A `WRREG` cut by a reset after `k` of its pin writes (R161, vector V80): after none the target is as it was, after 1 to 49 every
register is unknown, after all 50 the register is written. R161 is the spec's decision D7. -/
def Obligations.ResetInsideAFrameMakesTheTargetUnknown : Prop :=
  ∀ (a d : Byte) (s : State) (k : Nat), AtRest s → k ≤ 50 →
    ∃ t u, exec (.wrreg a d) s = .next t ∧ microSteps k t = .next u ∧
      (resetOp u).trace = s.trace ++ (frameEvents a d).take k ++ [.rst] ∧
      (resetOp u).reg = (if k = 0 then s.reg else if k < 50 then [] else s.reg.write a.toNat d) ∧
      (resetOp u).rx = Rx.reset ∧ AtRest (resetOp u)

/-! ## Words -/

/-- A few words written out from the encodings of R63 and R61 decode to what they stand for (the examples of R63, V8 and V9). -/
def Obligations.WrittenOutWordsDecode : Prop :=
  decode (.cmd20 0b00010000000110100101#20) = .op (.shift8 .lsb 0xA5#8) ∧
  decode (.cmd20 0b00100000101000001111#20) = .op (.wrreg 0x0A#8 0x0F#8) ∧
  decode (.cmd20 0b00110000000000000111#20) = .op (.encd 0x07#8) ∧
  decode (.cmd20 0b01000000000010110001#20) = .op (.encc 0xB1#8) ∧
  decode (.frame16 0b0000000110000000#16) = .op (.wrDig0 0x80#8) ∧
  decode (.frame16 0b0000111100000000#16) = .op (.wrDtest 0x00#8)

/-- Decoding gives every instruction back from its own word, with every operand value (R61, R63). -/
def Obligations.DecodeOfEncodeIsTheInstruction : Prop :=
  ∀ i : Instr, i.wellFormed = true → decode (encode i) = .op i

/-- No two command words mean the same operation: the word an operation was read from is the word that encodes it (R62, R63). -/
def Obligations.EncodeOfDecodeIsTheCommandWord : Prop :=
  ∀ (w : BitVec 20) (i : Instr), decode (.cmd20 w) = .op i → encode i = .cmd20 w

/-- Exactly the reserved command words of R69 are rejected: `op` 0x0 or 0x5 to 0xF, `op` 0x1 with any of `a[7:1]` set, `op` 0x3 or 0x4
with `a` not 0. A presented word of another length than 16 or 20 bits is rejected too (R71), and so is a word of the opcode table's
numbering that has neither length (24 is 20 bits counted in whole bytes, log 5). Presented to an idle machine such a word is refused: R69
gives the model that choice (D20; log 4). -/
def Obligations.ExactlyTheReservedWordsAreRefused : Prop :=
  (∀ w : BitVec 20,
    let op := (w >>> 16).toNat
    let a := (w >>> 8).setWidth 8
    (∃ r, decode (.cmd20 w) = .rejected r) ↔
      (op = 0 ∨ 5 ≤ op ∨ (op = 1 ∧ a &&& 0xFE#8 ≠ 0#8) ∨ ((op = 3 ∨ op = 4) ∧ a ≠ 0#8))) ∧
  (∀ nbits bits : Nat, decode (.otherLength nbits bits) = .rejected .noSuchLength) ∧
  (∀ nbits bits : Nat, nbits ≠ 16 → nbits ≠ 20 → nbits ≠ 24 →
    decode (portWordOfBits nbits bits) = .rejected .noSuchLength ∧ decodeTableWord nbits bits = none) ∧
  (∀ (w : PortWord) (s : State) (rest : List HostAct) (r : Reject), s.busy = false → resetDue s.resets = false →
    s.host = .present w :: rest → decode w = .rejected r → step s = .refused (.reservedWord r))

/-- The frame opcode map (R61): the sixteen-bit word of each address with a mnemonic decodes to that frame, and of every other
address to the `WRREG` that sends it, as R68 and R108 say it is sent (how a frame word reaches the port is the model's: log 5). -/
def Obligations.FrameWordsDecodeByTheirAddress : Prop :=
  (∀ p ∈ namedFrames, ∀ d : Byte, decode (.frame16 (p.2 ++ d)) = .op (p.1 d)) ∧
  (∀ a d : Byte, a ∉ namedFrames.map Prod.snd → decode (.frame16 (a ++ d)) = .op (.wrreg a d))

/-! ## A step -/

/-- A step of an idle machine runs the instruction the presented word decodes to: `exec` of it, at the state with that word taken off
the host's list and the reset countdown advanced (logs 1 and 2). -/
def Obligations.StepRunsTheDecodedInstruction : Prop :=
  ∀ (s : State) (w : PortWord) (rest : List HostAct) (i : Instr),
    s.busy = false → resetDue s.resets = false → s.host = .present w :: rest → decode w = .op i →
      step s = exec i { s with host := rest, resets := tickResets s.resets }

/-- While `BUSY = 1` a step is exactly one pin write of the running operation, the one at `UPC` by the closed forms of R82 and R91: that pin
takes the level, the two others keep theirs, the write is recorded and the receiver sees it, and `UPC` counts it; `BUSY` falls with the
last (R12, R17, R19, decision D5). The reset countdown advances by one (log 2), and nothing else changes: the host's list is not touched
(R18). -/
def Obligations.BusyStepIsOnePinWrite : Prop :=
  ∀ s : State, s.busy = true → resetDue s.resets = false → s.upc.toNat < (match s.op with | .shift8 => 24 | .wrreg => 50) →
    ∃ t, step s = .next t ∧
      t.pin (currentWrite s).1 = (currentWrite s).2 ∧ (∀ q, q ≠ (currentWrite s).1 → t.pin q = s.pin q) ∧
      t.trace = s.trace ++ [eventOf (currentWrite s)] ∧
      (t.reg, t.rx) = observe (eventOf (currentWrite s)) (s.reg, s.rx) ∧
      t.upc.toNat = s.upc.toNat + 1 ∧
      t.busy = decide (s.upc.toNat + 1 < (match s.op with | .shift8 => 24 | .wrreg => 50)) ∧
      t.op = s.op ∧ t.ha = s.ha ∧ t.hb = s.hb ∧ t.res = s.res ∧ t.host = s.host ∧ t.vars = s.vars ∧
      t.resets = (match s.resets with | [] => [] | n :: rest => (n - 1) :: rest)

/-- `PinWrite(p, v)` (R12): that pin takes the level, no other pin moves, and the write is recorded also when the pin already had the
level (decision D26); nothing but the wire and its observer changes. -/
def Obligations.PinWriteSetsOnePinAndIsRecorded : Prop :=
  ∀ (p : Pin) (v : Level) (s : State),
    (pinWrite p v s).pin p = v ∧ (∀ q, q ≠ p → (pinWrite p v s).pin q = s.pin q) ∧
    (pinWrite p v s).trace = s.trace ++ [.write p v] ∧
    (pinWrite p v s).busy = s.busy ∧ (pinWrite p v s).op = s.op ∧ (pinWrite p v s).ha = s.ha ∧
    (pinWrite p v s).hb = s.hb ∧ (pinWrite p v s).upc = s.upc ∧ (pinWrite p v s).res = s.res ∧
    (pinWrite p v s).host = s.host ∧ (pinWrite p v s).vars = s.vars ∧ (pinWrite p v s).resets = s.resets

/-- While `BUSY = 1` the port is not ready: no operation is accepted (R18, decision D3; the refusal's name is the model's, log 16). -/
def Obligations.BusyPortAcceptsNoInstruction : Prop :=
  ∀ (i : Instr) (s : State), s.busy = true → exec i s = .refused .portNotReady

/-- An idle machine accepts every pin-writing operation, with every operand (R18): the holding registers are loaded, `UPC` is 0, `BUSY`
rises, no pin is written, and everything else is unchanged. The registers are decision D5. -/
def Obligations.IssueLoadsTheHoldingRegisters : Prop :=
  ∀ s : State, s.busy = false →
    (∀ (o : BitOrder) (b : Byte), exec (.shift8 o b) s = .next
      { s with op := .shift8, ha := (match o with | .msb => 0x00#8 | .lsb => 0x01#8), hb := b, upc := 0#6, busy := true }) ∧
    (∀ a d : Byte, exec (.wrreg a d) s = .next { s with op := .wrreg, ha := a, hb := d, upc := 0#6, busy := true }) ∧
    (∀ p ∈ namedFrames, ∀ d : Byte,
      exec (p.1 d) s = .next { s with op := .wrreg, ha := p.2, hb := d, upc := 0#6, busy := true })

/-! ## The encoder -/

/-- `ENCD d` on an idle machine (R118): `RES` is the digit font's pattern zero-extended for `d` 0 to 9, else blank, and nothing else
changes; no pin is written. Blank above 9 is decision D8 (log 8); the font is the open parameter of Config. -/
def Obligations.EncdWritesTheDigitPattern : Prop :=
  ∀ (d : Byte) (s : State), s.busy = false →
    exec (.encd d) s = .next
      { s with res := if h : d.toNat < 10 then (Config.digitFont ⟨d.toNat, h⟩).setWidth 8 else 0x00#8 }

/-- `ENCC x` on an idle machine (R119): its word; `RES = (x & 0x80) | ASCII_FONT[x & 0x7F]` and nothing else changes; the space, and the
space plus 128; `x` and `x + 128` differ only in bit 7; the two worked examples. -/
def Obligations.EnccWritesTheSegmentByte : Prop :=
  (∀ x : Byte, encode (.encc x) = .cmd20 (0b0100#4 ++ 0b00000000#8 ++ x)) ∧
  (∀ (x : Byte) (s : State), s.busy = false →
    exec (.encc x) s = .next { s with res := (x &&& 0x80#8) ||| (romAscii ((x &&& 0x7F#8).setWidth 7)).setWidth 8 }) ∧
  (∀ s : State, s.busy = false →
    exec (.encc 0x20#8) s = .next { s with res := 0x00#8 } ∧ exec (.encc 0xA0#8) s = .next { s with res := 0x80#8 } ∧
    (∀ c : BitVec 7, romAscii c = 0#7 →
      exec (.encc (0x80#8 ||| c.setWidth 8)) s = .next { s with res := 0x80#8 })) ∧
  (∀ (x : Byte) (s : State), s.busy = false → x.toNat < 128 →
    ∃ t u, exec (.encc x) s = .next t ∧ exec (.encc (x + 128#8)) s = .next u ∧ u.res = t.res ||| 0x80#8 ∧
      t.res.getLsbD 7 = false) ∧
  decode (.cmd20 0x40031#20) = .op (.encc 0x31#8) ∧ decode (.cmd20 0x400B1#20) = .op (.encc 0xB1#8) ∧
  (∀ s : State, s.busy = false →
    exec (.encc 0x31#8) s = .next { s with res := (romAscii 0x31#7).setWidth 8 } ∧
    exec (.encc 0xB1#8) s = .next { s with res := 0x80#8 ||| (romAscii 0x31#7).setWidth 8 })

/-- The laws of `ENCC` (R120): the top bit of the result is the top bit of the operand, its low 7 bits are the font's entry for the low 7
bits; setting or clearing the operand's top bit sets or clears the result's. -/
def Obligations.EnccKeepsTheTopBitAndLooksUpTheRest : Prop :=
  ∀ (x : Byte) (s : State), s.busy = false →
    ∃ t on off, exec (.encc x) s = .next t ∧
      exec (.encc (x ||| 0x80#8)) s = .next on ∧ exec (.encc (x &&& 0x7F#8)) s = .next off ∧
      t.res.getLsbD 7 = x.getLsbD 7 ∧ t.res.setWidth 7 = romAscii (x.setWidth 7) ∧
      on.res = t.res ||| 0x80#8 ∧ off.res = t.res &&& 0x7F#8

/-- `RES` changes only when an encoder operation is presented to an idle machine, or at a reset (R15, R160). -/
def Obligations.OnlyTheEncoderWritesTheResult : Prop :=
  ∀ s t : State, step s = .next t → t.res ≠ s.res →
    resetDue s.resets = true ∨
    (s.busy = false ∧ ∃ w rest, s.host = .present w :: rest ∧
      ((∃ d, decode w = .op (.encd d)) ∨ (∃ x, decode w = .op (.encc x))))

/-! ## The serializer -/

/-- The procedures of R81 and R90 give the closed forms of R82 and R91, element by element. -/
def Obligations.SequencesHaveTheClosedForms : Prop :=
  (∀ (o : BitOrder) (b : Byte), pwShift8 o b = (List.range 24).map (shiftWrite o b)) ∧
  (∀ a d : Byte, pwWrreg a d = (List.range 50).map (frameWrite a d))

/-- The counts of R84: one `SHIFT8` makes 8 writes of `DIN` and 16 of `CLK`, 8 high and 8 low, 24 in all and none of `CS`. -/
def Obligations.SerializerMakesTwentyFourPinWrites : Prop :=
  ∀ (o : BitOrder) (b : Byte),
    (pwShift8 o b).length = 24 ∧ ((pwShift8 o b).filter fun w => w.1 = .din).length = 8 ∧
    ((pwShift8 o b).filter fun w => w.1 = .clk).length = 16 ∧
    (pwShift8 o b).count (.clk, true) = 8 ∧ (pwShift8 o b).count (.clk, false) = 8 ∧
    ((pwShift8 o b).filter fun w => w.1 = .cs).length = 0

/-- The order of the bits on the wire (R41): pulse `j` of a frame, `j` = 0..15 in time order, carries bit `15 - j` of the word with the
address in bits 15:8 and the data in bits 7:0; a `SHIFT8` in the other order carries bit `i` on pulse `i`. -/
def Obligations.FrameBitsGoOutMostSignificantFirst : Prop :=
  (∀ (a d : Byte) (j : Nat), j < 16 →
    (((pwWrreg a d).filter fun w => w.1 = .din).map Prod.snd)[j]? = some ((a ++ d : BitVec 16).getLsbD (15 - j)) ∧
    (pwWrreg a d)[1 + 3 * j]? = some (.din, (a ++ d : BitVec 16).getLsbD (15 - j)) ∧
    (pwWrreg a d)[2 + 3 * j]? = some (.clk, true) ∧ (pwWrreg a d)[3 + 3 * j]? = some (.clk, false)) ∧
  (∀ (b : Byte) (i : Nat), i < 8 →
    (((pwShift8 .lsb b).filter fun w => w.1 = .din).map Prod.snd)[i]? = some (b.getLsbD i))

/-- Data before clock (R83, R167): in every sequence the data line is written only while the clock is low, and every clock rise is preceded
by a data write and followed at once by the fall. -/
def Obligations.DataLineIsStableWhileTheClockIsHigh : Prop :=
  ∀ (k : OpKind) (ha hb : Byte) (n : Nat),
    ((∃ v, (pwSeq k ha hb)[n]? = some (.din, v)) → levelAfter .clk false ((pwSeq k ha hb).take n) = false) ∧
    ((pwSeq k ha hb)[n]? = some (.clk, true) →
      1 ≤ n ∧ (∃ v, (pwSeq k ha hb)[n - 1]? = some (.din, v)) ∧ (pwSeq k ha hb)[n + 1]? = some (.clk, false))

/-- A whole `SHIFT8` on an idle machine (R20, R81): exactly the 24 pin writes of R82 are appended; afterwards the clock is low, `DIN` has
the last bit, `CS` and `RES` are untouched, `BUSY` is 0 again, and what the target holds is what the receiver makes of those writes. -/
def Obligations.WholeShiftRunsToItsEnd : Prop :=
  ∀ (o : BitOrder) (b : Byte) (s : State), s.busy = false →
    execWhole (.shift8 o b) s = .next
      { s with
        clk := false, din := (match o with | .msb => b.getLsbD 0 | .lsb => b.getLsbD 7)
        busy := false, op := .shift8, ha := (match o with | .msb => 0x00#8 | .lsb => 0x01#8), hb := b, upc := 24#6
        trace := s.trace ++ shiftEvents o b
        reg := (observeAll (shiftEvents o b) (s.reg, s.rx)).1
        rx := (observeAll (shiftEvents o b) (s.reg, s.rx)).2 }

/-- A bare `SHIFT8` at rest clocks bits outside any frame: the reference receiver makes every register unknown (R85, decision D24; R49,
decision D17), whatever it held. -/
def Obligations.BareShiftMakesTheTargetUnknown : Prop :=
  ∀ (o : BitOrder) (b : Byte) (s : State), AtRest s →
    ∃ t, execWhole (.shift8 o b) s = .next t ∧ (∀ a, t.reg.read a = none) ∧ t.cs = s.cs ∧ t.res = s.res ∧ AtRest t

/-! ## The framer -/

/-- A whole `WRREG` at rest (R90, R92): exactly the 50 pin writes of R91 are appended, the receiver decodes one well-formed frame, and the
state is otherwise as R90 says. The receiver is decision D17. -/
def Obligations.WholeFrameWritesItsRegister : Prop :=
  ∀ (a d : Byte) (s : State), AtRest s → execWhole (.wrreg a d) s = .next (frameDone a d s)

/-- Each of the thirteen named frames, whole and at rest, is `WRREG` at its address (R95 to R107): the fifty pin writes go out, its register
takes the byte, every other register of the target reads as before, and `RES` is untouched. -/
def Obligations.NamedFramesWriteTheirRegisters : Prop :=
  ∀ p ∈ namedFrames, ∀ (d : Byte) (s : State), AtRest s →
    execWhole (p.1 d) s = .next (frameDone p.2 d s) ∧
    (frameDone p.2 d s).reg.read p.2.toNat = some d ∧
    ∀ b : Nat, b ≠ p.2.toNat → (frameDone p.2 d s).reg.read b = s.reg.read b

/-- The frame of a `WRREG` (R47, R90): after it the addressed register reads as the byte sent, every other one reads as before, and of S7X
only the pins, the sequencer's registers and `TRACE` may change. -/
def Obligations.FrameLeavesOtherRegistersAlone : Prop :=
  ∀ (a d : Byte) (s : State), AtRest s →
    ∃ t, execWhole (.wrreg a d) s = .next t ∧ t.reg.read a.toNat = some d ∧
      (∀ b : Nat, b ≠ a.toNat → t.reg.read b = s.reg.read b) ∧
      t.res = s.res ∧ t.host = s.host ∧ t.vars = s.vars ∧ t.resets = s.resets ∧ AtRest t

/-- A frame takes effect all at once (R59): after each of its first 49 pin writes the register file is as it was before the frame, and the
fiftieth writes one register. A bracket that ends otherwise, whatever writes it held, leaves every register unknown (R48). The receiver is
decision D17. -/
def Obligations.FrameTakesEffectAllAtOnce : Prop :=
  (∀ (a d : Byte) (s : State) (k : Nat), AtRest s → k ≤ 50 →
    ∃ t u, exec (.wrreg a d) s = .next t ∧ microSteps k t = .next u ∧
      u.reg = if k < 50 then s.reg else s.reg.write a.toNat d) ∧
  (∀ (s : State), s.rx.sel = false →
    (pinWrite .cs true s).reg =
      if s.rx.cnt = 16 ∧ s.rx.bad = false ∧ s.rx.clk = false then
        s.reg.write (s.rx.sh >>> 8).toNat (s.rx.sh.setWidth 8)
      else [])

/-- The last write to an address wins (R53, vector V9 f): two frames to one address leave the register file the second alone would leave. -/
def Obligations.LastFrameToAnAddressWins : Prop :=
  ∀ (a d e : Byte) (s : State), AtRest s →
    ∃ t u v, execWhole (.wrreg a d) s = .next t ∧ execWhole (.wrreg a e) t = .next u ∧
      execWhole (.wrreg a e) s = .next v ∧ u.reg = v.reg ∧ u.reg.read a.toNat = some e ∧
      u.trace = s.trace ++ frameEvents a d ++ frameEvents a e

/-- Any list of frames presented by any number of host contexts in any order goes out frame by frame, none interleaved with another inside
S7X, and the register file is the frames' writes applied in that order (R53, R55, R170 a). The list of the host's actions is the model's
(log 1), several contexts are one interleaved list (log 23), the receiver is decision D17 (log 11), and 51 steps are one presentation and
50 pin writes. -/
def Obligations.PresentedFramesTakeEffectInOrder : Prop :=
  ∀ (l : List (Byte × Byte)) (rest : List HostAct) (s : State), AtRest s → s.resets = [] →
    s.host = l.map (fun p => .present (encode (.wrreg p.1 p.2))) ++ rest →
    ∃ t, run (51 * l.length) s = .next t ∧ FramesSent l s t ∧ t.host = rest ∧ t.res = s.res ∧ t.vars = s.vars

/-- What a frame means to its register, with the value lists of R23 to R29 written out: all 256 values at 0x01 to 0x08, 0x00 and 0xFF at
0x09, up to 0x0F at 0x0A, up to 0x07 at 0x0B, 0x00 and 0x01 at 0x0C and 0x0F. A frame with an unlisted value or to an unlisted address goes
out all the same (R68, R103 to R108) and has no meaning (U3, U4, decision D16; log 22). The receiver is decision D17. -/
def Obligations.MeaningFollowsTheRegisterMap : Prop :=
  ∀ (a d : Byte) (s : State), AtRest s →
    ∃ t, execWhole (.wrreg a d) s = .next t ∧ t.trace = s.trace ++ frameEvents a d ∧
      (∀ n : Fin 8, a.toNat = n.val + 1 → t.meaningful (.digit n) = some d) ∧
      (a = 0x09#8 → t.decodeMode = if d = 0x00#8 then some .noDecode else if d = 0xFF#8 then some .bcdDecode else none) ∧
      (a = 0x0A#8 → t.brightness = if d.toNat ≤ 0x0F then some d.toNat else none) ∧
      (a = 0x0B#8 → t.digitsDriven = if d.toNat ≤ 0x07 then some (d.toNat + 1) else none) ∧
      (a = 0x0C#8 → t.normalOperation = if d = 0x00#8 then some false else if d = 0x01#8 then some true else none) ∧
      (a = 0x0F#8 → t.displayTestOn = if d = 0x00#8 then some false else if d = 0x01#8 then some true else none) ∧
      (∀ p ∈ registerTable, p.2 ≠ a → t.meaningful p.1 = s.meaningful p.1) ∧
      (documented (.wrreg a d) = true ↔
        (1 ≤ a.toNat ∧ a.toNat ≤ 8) ∨ (a = 0x09#8 ∧ (d = 0x00#8 ∨ d = 0xFF#8)) ∨ (a = 0x0A#8 ∧ d.toNat ≤ 0x0F) ∨
        (a = 0x0B#8 ∧ d.toNat ≤ 0x07) ∨ (a = 0x0C#8 ∧ (d = 0x00#8 ∨ d = 0x01#8)) ∨ (a = 0x0F#8 ∧ (d = 0x00#8 ∨ d = 0x01#8)))

/-! ## Every operation -/

/-- What an operation writes to the pins depends on nothing but the operation: from any two idle states, whatever came before, the same
events are appended (R21). -/
def Obligations.OperationsRememberNothing : Prop :=
  ∀ i : Instr, ∃ es : List Event, ∀ s : State, s.busy = false →
    ∃ t, execWhole i s = .next t ∧ t.trace = s.trace ++ es ∧ t.busy = false

/-- While a pin-writing operation runs, `UPC` is the number of its pin writes already made and `BUSY` is 1 until the last of them (R16,
R17, R19, decision D5); every operation ends after its fixed number of steps (R178). -/
def Obligations.ProgressCounterCountsThePinWrites : Prop :=
  ∀ (s : State) (k : Nat), s.busy = false →
    (∀ (o : BitOrder) (b : Byte), k ≤ 24 → ∃ t u, exec (.shift8 o b) s = .next t ∧ microSteps k t = .next u ∧
      u.upc.toNat = k ∧ u.busy = decide (k < 24) ∧ u.trace = s.trace ++ (shiftEvents o b).take k) ∧
    (∀ a d : Byte, k ≤ 50 → ∃ t u, exec (.wrreg a d) s = .next t ∧ microSteps k t = .next u ∧
      u.upc.toNat = k ∧ u.busy = decide (k < 50) ∧ u.trace = s.trace ++ (frameEvents a d).take k)

/-! ## The whole machine -/

/-- Every step keeps the invariant, from every state that has it: the canonical form of the register file and of the host's variables, the
receiver reading exactly `TRACE` (R44), the levels between operations (R22 a, b), the range of `UPC` (R17), the zero bits of `HA` (R14),
the receiver's progress inside a frame (R92). -/
def Obligations.StepKeepsTheInvariant : Prop :=
  ∀ s t : State, Inv s → step s = .next t → Inv t

/-- In a state with the invariant no step faults, and while an operation runs every step answers a next state: nothing can stop it but reset
(R20, R94, R140). -/
def Obligations.NoStepFaultsAndARunningOperationGoesOn : Prop :=
  ∀ s : State, Inv s → (∀ f, step s ≠ .fault f) ∧ (s.busy = true → ∃ t, step s = .next t)

/-- A register of the target changes only at the chip-select rise that ends a well-formed frame, then one register and all at once, or all
of them become unknown together (R23, R47, R59; the receiver is decision D17). -/
def Obligations.TargetChangesOnlyAtTheEndOfAFrame : Prop :=
  ∀ s t : State, step s = .next t →
    t.reg = s.reg ∨ t.reg = [] ∨
    (t.trace = s.trace ++ [.write .cs true] ∧ s.rx.sel = false ∧ s.rx.cnt = 16 ∧ s.rx.bad = false ∧ s.rx.clk = false ∧
      t.reg = s.reg.write (s.rx.sh.extractLsb' 8 8).toNat (s.rx.sh.extractLsb' 0 8))

/-- S7X breaks no frame of its own: in a state with the invariant the target's registers are made unknown only by a reset inside a frame
or by a bare `SHIFT8`; the one other change is the last pin write of a `WRREG`, which writes the byte in `HB` to the register in `HA`
(R48, R49, R85, R92). -/
def Obligations.OnlyResetOrABareShiftLosesTheTarget : Prop :=
  ∀ s t : State, Inv s → step s = .next t →
    t.reg = s.reg ∨
    (s.busy = true ∧ s.op = .wrreg ∧ s.upc = 49#6 ∧ t.busy = false ∧ t.reg = s.reg.write s.ha.toNat s.hb) ∨
    (t.reg = [] ∧ ((resetDue s.resets = true ∧ s.cs = false) ∨ (s.busy = true ∧ s.op = .shift8)))

/-- Chip-select discipline (R168): in a state with the invariant the clock rises outside a frame only while a bare `SHIFT8` runs, and
chip-select is low only while a `WRREG` runs. -/
def Obligations.ClockRisesOnlyInsideAFrameOrABareShift : Prop :=
  ∀ s t : State, Inv s → step s = .next t →
    (t.clk = true → s.clk = false → s.busy = true ∧ (s.cs = false ∨ s.op = .shift8)) ∧
    (s.cs = false → s.busy = true ∧ s.op = .wrreg)

/-- S7X never reads the target (R43): two states that differ only in what the target holds make the same step, but for what the target then
holds. -/
def Obligations.TargetIsNeverRead : Prop :=
  ∀ (s : State) (r : Memory) (x : Rx), blindToTarget (step { s with reg := r, rx := x }) = blindToTarget (step s)

/-! ## The macro operations -/

/-- `INIT` (R110, R111, R114): the five frames 0x0F00, 0x0C01, 0x0B07, 0x0A0F, 0x0900 in this order, 250 pin writes whatever came before;
the five configuration registers then hold their values whatever they held, every other register of the target is as it was. The target is
read by the receiver of decision D17 (log 11). The number of steps counts the model's own host transitions besides the pin writes (logs 1
and 21): one for the call, one for each frame presented. -/
def Obligations.InitSendsTheSameFiveFramesEveryTime : Prop :=
  ∀ (rest : List HostAct) (s : State), Calls .init rest s →
    ∃ t, run 256 s = .next t ∧
      FramesSent [(0x0F#8, 0x00#8), (0x0C#8, 0x01#8), (0x0B#8, 0x07#8), (0x0A#8, 0x0F#8), (0x09#8, 0x00#8)] s t ∧
      t.trace.length = s.trace.length + 250 ∧ Configured t ∧
      (∀ a : Nat, a ∉ [0x09, 0x0A, 0x0B, 0x0C, 0x0F] → t.reg.read a = s.reg.read a) ∧
      t.res = s.res ∧ t.host = rest

/-- `DISPLAY s1 .. s8` (R125): the eight bytes go out unchanged, `s1` to 0x08 first and `s8` to 0x01 last, and `RES` is untouched. The
order in time is decision D12 (log 20), the receiver decision D17 (log 11). The number of steps counts the model's own host transitions
besides the pin writes (logs 1 and 21): one for the call, one for each frame presented. -/
def Obligations.DisplayWritesTheEightBytesAsGiven : Prop :=
  ∀ (s1 s2 s3 s4 s5 s6 s7 s8 : Byte) (rest : List HostAct) (s : State), Calls (.display s1 s2 s3 s4 s5 s6 s7 s8) rest s →
    ∃ t, run 409 s = .next t ∧
      DigitsShown (fun k => ([s1, s2, s3, s4, s5, s6, s7, s8] : List Byte).getD k.val 0x00#8) s t ∧
      t.res = s.res ∧ t.host = rest

/-- `TEXT t` (R126): each position shows the encoding of the character at that offset, or of a space past the text's end; characters after
the eighth are never read; `RES` ends as the encoding of position 8. The order in time is decision D12 (log 20), the operand of bytes D13,
the receiver D17 (log 11). The number of steps counts the model's own host transitions besides the pin writes (logs 1 and 21): one for the
call, two for each position. -/
def Obligations.TextShowsItsFirstEightCharacters : Prop :=
  ∀ (txt : List Byte) (rest : List HostAct) (s : State), Calls (.text txt) rest s →
    ∃ t, run 417 s = .next t ∧
      DigitsShown (fun k => if h : k.val < txt.length then encc txt[k.val] else 0x00#8) s t ∧
      t.res = (if h : 7 < txt.length then encc txt[7] else 0x00#8) ∧ t.host = rest

/-- `TIME h, m, s, x` (R66, R128): tens and units of the four fields, decimal points after positions 2, 4 and 6, for every field 0 to 255.
The domain is decision D13; a tens digit above 9 is blank by decision D8 (log 8). The order in time is decision D12 (log 20), the receiver
D17 (log 11). The number of steps counts the model's own host transitions besides the pin writes (logs 1 and 21): one for the call, two
for each digit, which passes through a variable of the host (log 13), and one for each frame. -/
def Obligations.TimeShowsItsFourFields : Prop :=
  ∀ (h m sec x : Nat) (rest : List HostAct) (s : State), Calls (.time h m sec x) rest s →
    h ≤ 255 → m ≤ 255 → sec ≤ 255 → x ≤ 255 →
    ∃ t, run 425 s = .next t ∧
      DigitsShown (fun k => ([encd (h / 10), encd (h % 10) ||| 0x80#8, encd (m / 10), encd (m % 10) ||| 0x80#8,
        encd (sec / 10), encd (sec % 10) ||| 0x80#8, encd (x / 10), encd (x % 10)] : List Byte).getD k.val 0x00#8) s t ∧
      t.res = encd (x % 10) ∧ t.host = rest

/-- `DATE day, month, year` (R66, R130): tens and units of day and month with decimal points after positions 2 and 4, then four year
digits. The split of the year is decision D14, the domain decision D13; a digit above 9 is blank by decision D8 (log 8). The order in time
is decision D12 (log 20), the receiver D17 (log 11). The number of steps counts the model's own host transitions besides the pin writes
(logs 1 and 21): one for the call, two for each digit, which passes through a variable of the host (log 13), and one for each frame. -/
def Obligations.DateShowsDayMonthAndYear : Prop :=
  ∀ (day month year : Nat) (rest : List HostAct) (s : State), Calls (.date day month year) rest s →
    day ≤ 255 → month ≤ 255 → year ≤ 65535 →
    ∃ t, run 425 s = .next t ∧
      DigitsShown (fun k => ([encd (day / 10), encd (day % 10) ||| 0x80#8, encd (month / 10), encd (month % 10) ||| 0x80#8,
        encd (year / 1000), encd (year / 100 % 10), encd (year / 10 % 10), encd (year % 10)] : List Byte).getD k.val 0x00#8) s t ∧
      t.res = encd (year % 10) ∧ t.host = rest

/-- `COORD c, n` inside its precondition (R131): the label, padding, the number right-aligned in thousandths, and the decimal point always
at position 5 from the left, whatever stands there; it is `TEXT` of the composed eight characters. What the string `dec n` is,
DecIsThePlainDecimalString says. The index is decision D15, the order in time D12 (log 20), the receiver D17 (log 11). The number of steps
counts the model's own host transitions besides the pin writes (logs 1 and 21): one for the call, two for each position. -/
def Obligations.CoordShowsLabelPaddingAndNumber : Prop :=
  ∀ (c : Byte) (n : Int) (rest : List HostAct) (s : State), Calls (.coord c n) rest s → -999999 ≤ n → n ≤ 9999999 →
    ∃ t, run 417 s = .next t ∧
      DigitsShown (fun k =>
        if k.val = 0 then encc c
        else
          let plain : Byte := if k.val ≤ 7 - (dec n).length then 0x00#8 else encc ((dec n).getD (k.val - (8 - (dec n).length)) 0x00#8)
          if k.val = 4 then plain ||| 0x80#8 else plain) s t ∧
      t.host = rest

/-- `BRIGHT level` (R132): in range one frame to the intensity register with exactly that level; out of range, negative levels among them,
nothing at all: no pin write, no state change but the host's own list. The integer operand is decision D13, the receiver D17 (log 11). The
number of steps counts the model's own host transitions besides the pin writes (logs 1 and 21): 52 is one for the call, one for the frame
presented and its 50 pin writes, and the one step outside the range is the call. -/
def Obligations.BrightnessIsSetInRangeAndIgnoredOutside : Prop :=
  ∀ (level : Int) (rest : List HostAct) (s : State), Calls (.bright level) rest s →
    (0 ≤ level → level ≤ 15 → ∃ t, run 52 s = .next t ∧
      FramesSent [(0x0A#8, BitVec.ofInt 8 level)] s t ∧ t.brightness = some level.toNat ∧
      (∀ a : Nat, a ≠ 0x0A → t.reg.read a = s.reg.read a) ∧ t.res = s.res ∧ t.host = rest) ∧
    (level < 0 ∨ 15 < level → step s = .next { s with host := rest })

/-- `TEST` (R133): the fixed pattern goes to the eight digits, bypassing the encoder, so `RES` is untouched and the display-test register
is not written. The order is decision D11 (log 20), the receiver D17 (log 11); the pattern is the open parameter of Config. The number of
steps counts the model's own host transitions besides the pin writes (logs 1 and 21): one for the call, one for each frame presented. -/
def Obligations.TestWritesTheFixedPattern : Prop :=
  ∀ (rest : List HostAct) (s : State), Calls .test rest s →
    ∃ t, run 409 s = .next t ∧ DigitsShown Config.testPattern s t ∧
      t.target .displayTest = s.target .displayTest ∧ t.res = s.res ∧ t.host = rest

/-- The precondition of `COORD` (R131): the decimal string of `n` has at most seven characters exactly for `-999999 <= n <= 9999999`. -/
def Obligations.SevenCharactersFitExactlyTheStatedRange : Prop :=
  ∀ n : Int, (dec n).length ≤ 7 ↔ (-999999 ≤ n ∧ n ≤ 9999999)

/-- A macro operation is refused exactly outside its operand domain (D13, U14) or, for `COORD`, its precondition (R131, U5); everything
else runs (R143). -/
def Obligations.MacrosAreRefusedExactlyOutsideTheirDomain : Prop :=
  ∀ (m : MacroOp) (rest : List HostAct) (s : State), s.busy = false → resetDue s.resets = false → s.host = .call m :: rest →
    ((∃ t, step s = .next t) ↔ m.wellFormed = true) ∧ (m.wellFormed = false → ∃ r, step s = .refused r)

/-- Inside the documented ranges (R135) no `ENCD` of `TIME` or `DATE` is out of the digit font's range. -/
def Obligations.DocumentedRangesStayInsideTheDigitFont : Prop :=
  (∀ h m s x : Nat, (MacroOp.time h m s x).documented = true → ∀ p ∈ timeDigits h m s x, p.1 ≤ 9) ∧
  (∀ day month year : Nat, (MacroOp.date day month year).documented = true → ∀ p ∈ dateDigits day month year, p.1 ≤ 9)

/-! ## Operands and the target -/

/-- Position-to-address mapping (R50): position `k` from the left is address `9 - k`, 0x08 leftmost and 0x01 rightmost; Digit `n` is
address `n + 1` and position `8 - n`; `display` writes seg1 to 0x08 down to seg8 to 0x01. That the eight writes go out in this order in
time is decision D12 (log 20). -/
def Obligations.PositionsMapToAddresses : Prop :=
  (∀ k : Nat, 1 ≤ k → k ≤ 8 → (addrOfPosition k).toNat = 9 - k) ∧
  addrOfPosition 1 = 0x08#8 ∧ addrOfPosition 8 = 0x01#8 ∧
  (∀ n : Fin 8, (TargetReg.digit n).addr.toNat = n.val + 1 ∧ addrOfPosition (8 - n.val) = (TargetReg.digit n).addr) ∧
  (∀ s1 s2 s3 s4 s5 s6 s7 s8 : Byte, expand 0 (.display s1 s2 s3 s4 s5 s6 s7 s8) = .ok
    [.present (encode (.wrreg 0x08#8 s1)), .present (encode (.wrreg 0x07#8 s2)), .present (encode (.wrreg 0x06#8 s3)),
     .present (encode (.wrreg 0x05#8 s4)), .present (encode (.wrreg 0x04#8 s5)), .present (encode (.wrreg 0x03#8 s6)),
     .present (encode (.wrreg 0x02#8 s7)), .present (encode (.wrreg 0x01#8 s8))])

/-- The register map (R23, R24), row by row: which register stands at which of the thirteen addresses, that no other address has one, and
which values each register lists (R24 to R29). -/
def Obligations.RegisterMapIsExact : Prop :=
  (∀ p ∈ registerTable, p.1.addr = p.2 ∧ TargetReg.ofAddr p.2 = some p.1) ∧
  (∀ r : TargetReg, r ∈ registerTable.map Prod.fst) ∧
  (∀ a : Byte, TargetReg.ofAddr a = none ↔ a ∉ registerTable.map Prod.snd) ∧
  (∀ v : Byte,
    (∀ n : Fin 8, (TargetReg.digit n).listed v = true) ∧
    (TargetReg.decodeMode.listed v = true ↔ v = 0x00#8 ∨ v = 0xFF#8) ∧
    (TargetReg.intensity.listed v = true ↔ v.toNat ≤ 0x0F) ∧
    (TargetReg.scanLimit.listed v = true ↔ v.toNat ≤ 0x07) ∧
    (TargetReg.shutdown.listed v = true ↔ v = 0x00#8 ∨ v = 0x01#8) ∧
    (TargetReg.displayTest.listed v = true ↔ v = 0x00#8 ∨ v = 0x01#8))

/-- What a configured target shows (R24 to R29): no decode, eight digits, full brightness, normal operation, display test off, so that the
source's reading of the digits applies; and then each bit of a digit's byte lights one segment, bit 7 its decimal point. Which segment bit
`i` lights is the open map `SEGMAP` (R122): the statement holds under every bijection (R6), so under `SEGMAP` if it is one. That bytes
written before a shutdown still count once it has ended is the model's choice (log 25). -/
def Obligations.ConfiguredTargetShowsRawSegments : Prop :=
  ∀ s : State, Configured s →
    s.decodeMode = some .noDecode ∧ s.digitsDriven = some 8 ∧ s.brightness = some 15 ∧ s.normalOperation = some true ∧
    s.displayTestOn = some false ∧ s.readingApplies = true ∧
    ∀ (n : Fin 8) (v : Byte), s.target (.digit n) = some v →
      s.pointLit n = some (v.getLsbD 7) ∧ (∀ i : Fin 7, s.patternBit n i = some (v.getLsbD i.val)) ∧
      (∀ m : Fin 7 → Segment, Function.Bijective m → ∀ i : Fin 7, s.segmentLitBy m n (m i) = some (v.getLsbD i.val)) ∧
      (Config.SegmentsBijective → ∀ i : Fin 7, s.segmentLit n (Config.segMap i) = some (v.getLsbD i.val))

/-! ## Operands the host writes -/

/-- `RES` as an operand of `WRREG` (R72): either operand, or both, may be a byte, `RES` or a byte the host holds (log 13), and the frame
sent is the one of the bytes they stand for when it is presented. A variable the host never filled is refused by name (log 13). -/
def Obligations.ResIsAnOperandOfWrreg : Prop :=
  ∀ (a d : WrregOperand) (rest : List HostAct) (s : State), AtRest s → s.resets = [] → s.host = .presentWrreg a d :: rest →
    let value : WrregOperand → Option Byte := fun o =>
      match o with
      | .byte b => some b
      | .res => some s.res
      | .var v => s.vars.read v
    (∀ x y : Byte, value a = some x → value d = some y →
      ∃ t, run 51 s = .next t ∧ FramesSent [(x, y)] s t ∧ t.res = s.res ∧ t.host = rest) ∧
    (value a = none ∨ value d = none → step s = .refused .hostVariableUnset)

/-- The decimal string of `n` (R131): for a negative number 0x2D and the string of its negation; else the bytes 0x30 to 0x39, at least one,
no leading zero but in "0" itself, that evaluate to `n` most significant digit first. -/
def Obligations.DecIsThePlainDecimalString : Prop :=
  ∀ n : Int,
    (n < 0 → dec n = 0x2D#8 :: dec (-n)) ∧
    (n = 0 → dec n = [0x30#8]) ∧
    (0 < n → (dec n).head? ≠ none ∧ (dec n).head? ≠ some 0x30#8) ∧
    (0 ≤ n → (∀ x ∈ dec n, 0x30 ≤ x.toNat ∧ x.toNat ≤ 0x39) ∧
      (dec n).foldl (fun v x => 10 * v + (x.toNat - 0x30)) 0 = n.toNat)
end

