-- ==== Sys2Proof/Laws/Decode.lean ====
section
/-! SUPPORT. The fields of an encoded word come apart as they were put together. -/

namespace Sys2Proof

theorem extract_op (op : BitVec 4) (a b : Byte) : BitVec.extractLsb' 16 4 (op ++ a ++ b : BitVec 20) = op := by
  rw [BitVec.extractLsb'_append_eq_of_le (by decide), BitVec.extractLsb'_append_eq_of_le (by decide)]; simp

theorem extract_a (op : BitVec 4) (a b : Byte) : BitVec.extractLsb' 8 8 (op ++ a ++ b : BitVec 20) = a := by
  rw [BitVec.extractLsb'_append_eq_of_le (by decide), BitVec.extractLsb'_append_eq_of_add_le (by decide)]; simp

theorem extract_b (op : BitVec 4) (a b : Byte) : BitVec.extractLsb' 0 8 (op ++ a ++ b : BitVec 20) = b := by
  rw [BitVec.extractLsb'_append_eq_of_add_le (by decide)]; simp

theorem extract_address (a d : Byte) : BitVec.extractLsb' 8 8 (a ++ d : BitVec 16) = a := by
  rw [BitVec.extractLsb'_append_eq_of_le (by decide)]; simp

theorem extract_data (a d : Byte) : BitVec.extractLsb' 0 8 (a ++ d : BitVec 16) = d := by
  rw [BitVec.extractLsb'_append_eq_of_add_le (by decide)]; simp

end Sys2Proof
end

