-- ==== Sys2Proof/Laws/Memory.lean ====
section
/-! SUPPORT. The laws of a byte store: read after write, the canonical form, and that equal reads mean equal stores. -/

namespace Sys2Proof.Machine.Memory

@[simp] theorem read_nil (a : Nat) : Memory.read [] a = none := rfl

@[simp] theorem read_allUnknown (a : Nat) : Memory.allUnknown.read a = none := rfl

/-- The entry written reads as the value written. -/
@[simp] theorem read_write_same (m : Memory) (a : Nat) (d : Byte) : (m.write a d).read a = some d := by
  induction m with
  | nil => simp [write, read]
  | cons c m ih => unfold write; split_ifs with h1 h2 <;> simp_all [read]

/-- Every other entry reads as before. -/
theorem read_write_of_ne (m : Memory) (a b : Nat) (d : Byte) (h : b ≠ a) : (m.write a d).read b = m.read b := by
  induction m with
  | nil => simp [write, read, h]
  | cons c m ih =>
    unfold write
    split_ifs with h1 h2
    · simp [read, h]
    · subst h2; simp [read, h]
    · simp [read, ih]

theorem read_write (m : Memory) (a b : Nat) (d : Byte) : (m.write a d).read b = if b = a then some d else m.read b := by
  split_ifs with h
  · rw [h, read_write_same]
  · exact read_write_of_ne m a b d h

theorem risingFrom_write (m : Memory) (lo a : Nat) (d : Byte) (ha : lo ≤ a) (h : m.risingFrom lo = true) :
    (m.write a d).risingFrom lo = true := by
  induction m generalizing lo with
  | nil => simp [write, risingFrom, ha]
  | cons c m ih =>
    simp only [risingFrom, Bool.and_eq_true, decide_eq_true_eq] at h
    unfold write
    split_ifs with h1 h2
    · simp [risingFrom, ha, h.2]; omega
    · subst h2; simp [risingFrom, ha, h.2]
    · simp [risingFrom, h.1, ih (c.1 + 1) (by omega) h.2]

/-- A write keeps the canonical form. -/
theorem wf_write (m : Memory) (a : Nat) (d : Byte) (h : m.wf = true) : (m.write a d).wf = true :=
  risingFrom_write m 0 a d (Nat.zero_le a) h

@[simp] theorem wf_allUnknown : Memory.allUnknown.wf = true := rfl

theorem inRegisterSpace_cons (c : Host.Cell) (m : Memory) :
    Memory.inRegisterSpace (c :: m) = (decide (c.1 < 256) && m.inRegisterSpace) := rfl

theorem inRegisterSpace_write (m : Memory) (a : Nat) (d : Byte) (ha : a < 256) (h : m.inRegisterSpace = true) :
    (m.write a d).inRegisterSpace = true := by
  induction m with
  | nil => simp [write, inRegisterSpace, ha]
  | cons c m ih =>
    rw [inRegisterSpace_cons, Bool.and_eq_true, decide_eq_true_eq] at h
    unfold write
    split_ifs with h1 h2 <;> simp [inRegisterSpace_cons, ha, h.1, h.2, ih h.2]

@[simp] theorem inRegisterSpace_allUnknown : Memory.allUnknown.inRegisterSpace = true := rfl

/-- Below the first number of a rising store nothing is listed. -/
theorem read_of_lt (m : Memory) (lo a : Nat) (h : m.risingFrom lo = true) (ha : a < lo) : m.read a = none := by
  induction m generalizing lo with
  | nil => rfl
  | cons c m ih =>
    simp only [risingFrom, Bool.and_eq_true, decide_eq_true_eq] at h
    have hne : a ≠ c.1 := by omega
    simp [read, hne, ih (c.1 + 1) h.2 (by omega)]

/-- Equal memories are equal data: two canonical stores that read alike are the same list. -/
theorem eq_of_read_eq (m n : Memory) (lo : Nat) (hm : m.risingFrom lo = true) (hn : n.risingFrom lo = true)
    (h : ∀ a, m.read a = n.read a) : m = n := by
  induction m generalizing n lo with
  | nil =>
    cases n with
    | nil => rfl
    | cons c n => have := h c.1; simp [read] at this
  | cons c m ih =>
    cases n with
    | nil => have := h c.1; simp [read] at this
    | cons e n =>
      have hm' := hm
      have hn' := hn
      simp only [risingFrom, Bool.and_eq_true, decide_eq_true_eq] at hm hn
      have hc := h c.1
      have he := h e.1
      have key : c.1 = e.1 := by
        rcases Nat.lt_trichotomy c.1 e.1 with hlt | heq | hgt
        · have := read_of_lt n (e.1 + 1) c.1 hn.2 (by omega)
          simp [read, this, Nat.ne_of_lt hlt] at hc
        · exact heq
        · have := read_of_lt m (c.1 + 1) e.1 hm.2 (by omega)
          simp [read, this, Nat.ne_of_lt hgt] at he
      have hv : c.2 = e.2 := by simpa [read, key] using hc
      have hce : c = e := Prod.ext key hv
      subst hce
      have tails : m = n := by
        refine ih n (c.1 + 1) hm.2 hn.2 fun a => ?_
        rcases Nat.lt_or_ge a (c.1 + 1) with hlt | hge
        · rw [read_of_lt m _ a hm.2 hlt, read_of_lt n _ a hn.2 hlt]
        · have := h a
          have hne : a ≠ c.1 := by omega
          simpa [read, hne] using this
      rw [tails]

end Sys2Proof.Machine.Memory
end

