-- ==== Sys2Proof/Laws/Receiver.lean ====
section
/-! SUPPORT. What one event does to the target as the reference receiver sees it, said once. -/

namespace Sys2Proof.Machine

theorem observeAll_append (xs ys : List Event) (t : Target) : observeAll (xs ++ ys) t = observeAll ys (observeAll xs t) := by
  simp [observeAll]

@[simp] theorem observeAll_nil (t : Target) : observeAll [] t = t := rfl

@[simp] theorem observeAll_cons (e : Event) (es : List Event) (t : Target) :
    observeAll (e :: es) t = observeAll es (observe e t) := rfl

/-- The receiver reads one more event at the end of `TRACE` (R44). -/
theorem receive_append (es : List Event) (e : Event) : receive (es ++ [e]) = observe e (receive es) := by
  simp [receive, observeAll]

/-- Everything an event can do to the register file (R46 to R49): nothing, one register written by a frame that ends well formed, or
every register made unknown. -/
theorem observe_reg_cases (e : Event) (t : Target) :
    (observe e t).1 = t.1 ∨
    (e = .write .cs true ∧ t.2.sel = false ∧ t.2.wellFormedFrame = true ∧
      (observe e t).1 = memWrite t.1 t.2.address t.2.data) ∨
    (observe e t).1 = Memory.allUnknown := by
  cases e with
  | rst => simp only [observe, onRst]; split_ifs <;> simp
  | write p v =>
    cases p with
    | din => simp [observe, onDin]
    | clk => simp only [observe, onClk]; split_ifs <;> simp
    | cs => cases v <;> simp only [observe, onCs] <;> split_ifs <;> simp_all

/-- An event keeps the canonical form of the register file. -/
theorem observe_wf (e : Event) (t : Target) (h : t.1.wf = true) : (observe e t).1.wf = true := by
  rcases observe_reg_cases e t with h1 | ⟨-, -, -, h1⟩ | h1 <;> rw [h1]
  · exact h
  · exact Memory.wf_write _ _ _ h
  · rfl

/-- An event lists registers of the 8-bit space only. -/
theorem observe_inRegisterSpace (e : Event) (t : Target) (h : t.1.inRegisterSpace = true) :
    (observe e t).1.inRegisterSpace = true := by
  rcases observe_reg_cases e t with h1 | ⟨-, -, -, h1⟩ | h1 <;> rw [h1]
  · exact h
  · exact Memory.inRegisterSpace_write _ _ _ (BitVec.isLt _) h
  · rfl

/-- The receiver's last seen levels follow the pin writes (R39, R46). -/
theorem observe_write_levels (p : Pin) (v : Level) (t : Target) :
    (observe (.write p v) t).2.sel = (if p = .cs then v else t.2.sel) ∧
    (observe (.write p v) t).2.clk = (if p = .clk then v else t.2.clk) ∧
    (observe (.write p v) t).2.din = (if p = .din then v else t.2.din) := by
  cases p with
  | din => simp [observe, onDin]
  | clk => simp only [observe, onClk]; split_ifs <;> simp_all
  | cs => cases v <;> simp only [observe, onCs] <;> split_ifs <;> simp_all

@[simp] theorem observe_rst_rx (t : Target) : (observe .rst t).2 = Rx.reset := rfl

end Sys2Proof.Machine
end

