-- ==== Sys2Proof/Laws/State.lean ====
section
/-! SUPPORT. The small lemmas of the named state updates: one per field per update, so that no later proof unfolds a record update. -/

namespace Sys2Proof.Machine

@[simp] theorem State.setRes_din (s : State) (b : Byte) : (s.setRes b).din = s.din := rfl
@[simp] theorem State.setRes_clk (s : State) (b : Byte) : (s.setRes b).clk = s.clk := rfl
@[simp] theorem State.setRes_cs (s : State) (b : Byte) : (s.setRes b).cs = s.cs := rfl
@[simp] theorem State.setRes_busy (s : State) (b : Byte) : (s.setRes b).busy = s.busy := rfl
@[simp] theorem State.setRes_op (s : State) (b : Byte) : (s.setRes b).op = s.op := rfl
@[simp] theorem State.setRes_ha (s : State) (b : Byte) : (s.setRes b).ha = s.ha := rfl
@[simp] theorem State.setRes_hb (s : State) (b : Byte) : (s.setRes b).hb = s.hb := rfl
@[simp] theorem State.setRes_upc (s : State) (b : Byte) : (s.setRes b).upc = s.upc := rfl
@[simp] theorem State.setRes_res (s : State) (b : Byte) : (s.setRes b).res = b := rfl
@[simp] theorem State.setRes_trace (s : State) (b : Byte) : (s.setRes b).trace = s.trace := rfl
@[simp] theorem State.setRes_reg (s : State) (b : Byte) : (s.setRes b).reg = s.reg := rfl
@[simp] theorem State.setRes_rx (s : State) (b : Byte) : (s.setRes b).rx = s.rx := rfl
@[simp] theorem State.setRes_host (s : State) (b : Byte) : (s.setRes b).host = s.host := rfl
@[simp] theorem State.setRes_vars (s : State) (b : Byte) : (s.setRes b).vars = s.vars := rfl
@[simp] theorem State.setRes_resets (s : State) (b : Byte) : (s.setRes b).resets = s.resets := rfl

@[simp] theorem State.load_din (s : State) (k : OpKind) (ha hb : Byte) : (s.load k ha hb).din = s.din := rfl
@[simp] theorem State.load_clk (s : State) (k : OpKind) (ha hb : Byte) : (s.load k ha hb).clk = s.clk := rfl
@[simp] theorem State.load_cs (s : State) (k : OpKind) (ha hb : Byte) : (s.load k ha hb).cs = s.cs := rfl
@[simp] theorem State.load_busy (s : State) (k : OpKind) (ha hb : Byte) : (s.load k ha hb).busy = true := rfl
@[simp] theorem State.load_op (s : State) (k : OpKind) (ha hb : Byte) : (s.load k ha hb).op = k := rfl
@[simp] theorem State.load_ha (s : State) (k : OpKind) (ha hb : Byte) : (s.load k ha hb).ha = ha := rfl
@[simp] theorem State.load_hb (s : State) (k : OpKind) (ha hb : Byte) : (s.load k ha hb).hb = hb := rfl
@[simp] theorem State.load_upc (s : State) (k : OpKind) (ha hb : Byte) : (s.load k ha hb).upc = 0#6 := rfl
@[simp] theorem State.load_res (s : State) (k : OpKind) (ha hb : Byte) : (s.load k ha hb).res = s.res := rfl
@[simp] theorem State.load_trace (s : State) (k : OpKind) (ha hb : Byte) : (s.load k ha hb).trace = s.trace := rfl
@[simp] theorem State.load_reg (s : State) (k : OpKind) (ha hb : Byte) : (s.load k ha hb).reg = s.reg := rfl
@[simp] theorem State.load_rx (s : State) (k : OpKind) (ha hb : Byte) : (s.load k ha hb).rx = s.rx := rfl
@[simp] theorem State.load_host (s : State) (k : OpKind) (ha hb : Byte) : (s.load k ha hb).host = s.host := rfl
@[simp] theorem State.load_vars (s : State) (k : OpKind) (ha hb : Byte) : (s.load k ha hb).vars = s.vars := rfl
@[simp] theorem State.load_resets (s : State) (k : OpKind) (ha hb : Byte) : (s.load k ha hb).resets = s.resets := rfl

@[simp] theorem State.advance_din (s : State) (n : Nat) : (s.advance n).din = s.din := rfl
@[simp] theorem State.advance_clk (s : State) (n : Nat) : (s.advance n).clk = s.clk := rfl
@[simp] theorem State.advance_cs (s : State) (n : Nat) : (s.advance n).cs = s.cs := rfl
@[simp] theorem State.advance_busy (s : State) (n : Nat) : (s.advance n).busy = busyAfterWrite (s.upc + 1#6) n s.busy := rfl
@[simp] theorem State.advance_op (s : State) (n : Nat) : (s.advance n).op = s.op := rfl
@[simp] theorem State.advance_ha (s : State) (n : Nat) : (s.advance n).ha = s.ha := rfl
@[simp] theorem State.advance_hb (s : State) (n : Nat) : (s.advance n).hb = s.hb := rfl
@[simp] theorem State.advance_upc (s : State) (n : Nat) : (s.advance n).upc = s.upc + 1#6 := rfl
@[simp] theorem State.advance_res (s : State) (n : Nat) : (s.advance n).res = s.res := rfl
@[simp] theorem State.advance_trace (s : State) (n : Nat) : (s.advance n).trace = s.trace := rfl
@[simp] theorem State.advance_reg (s : State) (n : Nat) : (s.advance n).reg = s.reg := rfl
@[simp] theorem State.advance_rx (s : State) (n : Nat) : (s.advance n).rx = s.rx := rfl
@[simp] theorem State.advance_host (s : State) (n : Nat) : (s.advance n).host = s.host := rfl
@[simp] theorem State.advance_vars (s : State) (n : Nat) : (s.advance n).vars = s.vars := rfl
@[simp] theorem State.advance_resets (s : State) (n : Nat) : (s.advance n).resets = s.resets := rfl

@[simp] theorem State.record_din (s : State) (e : Event) : (s.record e).din = s.din := rfl
@[simp] theorem State.record_clk (s : State) (e : Event) : (s.record e).clk = s.clk := rfl
@[simp] theorem State.record_cs (s : State) (e : Event) : (s.record e).cs = s.cs := rfl
@[simp] theorem State.record_busy (s : State) (e : Event) : (s.record e).busy = s.busy := rfl
@[simp] theorem State.record_op (s : State) (e : Event) : (s.record e).op = s.op := rfl
@[simp] theorem State.record_ha (s : State) (e : Event) : (s.record e).ha = s.ha := rfl
@[simp] theorem State.record_hb (s : State) (e : Event) : (s.record e).hb = s.hb := rfl
@[simp] theorem State.record_upc (s : State) (e : Event) : (s.record e).upc = s.upc := rfl
@[simp] theorem State.record_res (s : State) (e : Event) : (s.record e).res = s.res := rfl
@[simp] theorem State.record_trace (s : State) (e : Event) : (s.record e).trace = s.trace ++ [e] := rfl
@[simp] theorem State.record_reg (s : State) (e : Event) : (s.record e).reg = (observe e (s.reg, s.rx)).1 := rfl
@[simp] theorem State.record_rx (s : State) (e : Event) : (s.record e).rx = (observe e (s.reg, s.rx)).2 := rfl
@[simp] theorem State.record_host (s : State) (e : Event) : (s.record e).host = s.host := rfl
@[simp] theorem State.record_vars (s : State) (e : Event) : (s.record e).vars = s.vars := rfl
@[simp] theorem State.record_resets (s : State) (e : Event) : (s.record e).resets = s.resets := rfl

@[simp] theorem State.withHost_din (s : State) (h : List HostAct) : (s.withHost h).din = s.din := rfl
@[simp] theorem State.withHost_clk (s : State) (h : List HostAct) : (s.withHost h).clk = s.clk := rfl
@[simp] theorem State.withHost_cs (s : State) (h : List HostAct) : (s.withHost h).cs = s.cs := rfl
@[simp] theorem State.withHost_busy (s : State) (h : List HostAct) : (s.withHost h).busy = s.busy := rfl
@[simp] theorem State.withHost_op (s : State) (h : List HostAct) : (s.withHost h).op = s.op := rfl
@[simp] theorem State.withHost_ha (s : State) (h : List HostAct) : (s.withHost h).ha = s.ha := rfl
@[simp] theorem State.withHost_hb (s : State) (h : List HostAct) : (s.withHost h).hb = s.hb := rfl
@[simp] theorem State.withHost_upc (s : State) (h : List HostAct) : (s.withHost h).upc = s.upc := rfl
@[simp] theorem State.withHost_res (s : State) (h : List HostAct) : (s.withHost h).res = s.res := rfl
@[simp] theorem State.withHost_trace (s : State) (h : List HostAct) : (s.withHost h).trace = s.trace := rfl
@[simp] theorem State.withHost_reg (s : State) (h : List HostAct) : (s.withHost h).reg = s.reg := rfl
@[simp] theorem State.withHost_rx (s : State) (h : List HostAct) : (s.withHost h).rx = s.rx := rfl
@[simp] theorem State.withHost_host (s : State) (h : List HostAct) : (s.withHost h).host = h := rfl
@[simp] theorem State.withHost_vars (s : State) (h : List HostAct) : (s.withHost h).vars = s.vars := rfl
@[simp] theorem State.withHost_resets (s : State) (h : List HostAct) : (s.withHost h).resets = s.resets := rfl

@[simp] theorem State.setVar_din (s : State) (v : Nat) (b : Byte) : (s.setVar v b).din = s.din := rfl
@[simp] theorem State.setVar_clk (s : State) (v : Nat) (b : Byte) : (s.setVar v b).clk = s.clk := rfl
@[simp] theorem State.setVar_cs (s : State) (v : Nat) (b : Byte) : (s.setVar v b).cs = s.cs := rfl
@[simp] theorem State.setVar_busy (s : State) (v : Nat) (b : Byte) : (s.setVar v b).busy = s.busy := rfl
@[simp] theorem State.setVar_op (s : State) (v : Nat) (b : Byte) : (s.setVar v b).op = s.op := rfl
@[simp] theorem State.setVar_ha (s : State) (v : Nat) (b : Byte) : (s.setVar v b).ha = s.ha := rfl
@[simp] theorem State.setVar_hb (s : State) (v : Nat) (b : Byte) : (s.setVar v b).hb = s.hb := rfl
@[simp] theorem State.setVar_upc (s : State) (v : Nat) (b : Byte) : (s.setVar v b).upc = s.upc := rfl
@[simp] theorem State.setVar_res (s : State) (v : Nat) (b : Byte) : (s.setVar v b).res = s.res := rfl
@[simp] theorem State.setVar_trace (s : State) (v : Nat) (b : Byte) : (s.setVar v b).trace = s.trace := rfl
@[simp] theorem State.setVar_reg (s : State) (v : Nat) (b : Byte) : (s.setVar v b).reg = s.reg := rfl
@[simp] theorem State.setVar_rx (s : State) (v : Nat) (b : Byte) : (s.setVar v b).rx = s.rx := rfl
@[simp] theorem State.setVar_host (s : State) (v : Nat) (b : Byte) : (s.setVar v b).host = s.host := rfl
@[simp] theorem State.setVar_vars (s : State) (v : Nat) (b : Byte) : (s.setVar v b).vars = s.vars.write v b := rfl
@[simp] theorem State.setVar_resets (s : State) (v : Nat) (b : Byte) : (s.setVar v b).resets = s.resets := rfl

@[simp] theorem State.withResets_din (s : State) (r : List Nat) : (s.withResets r).din = s.din := rfl
@[simp] theorem State.withResets_clk (s : State) (r : List Nat) : (s.withResets r).clk = s.clk := rfl
@[simp] theorem State.withResets_cs (s : State) (r : List Nat) : (s.withResets r).cs = s.cs := rfl
@[simp] theorem State.withResets_busy (s : State) (r : List Nat) : (s.withResets r).busy = s.busy := rfl
@[simp] theorem State.withResets_op (s : State) (r : List Nat) : (s.withResets r).op = s.op := rfl
@[simp] theorem State.withResets_ha (s : State) (r : List Nat) : (s.withResets r).ha = s.ha := rfl
@[simp] theorem State.withResets_hb (s : State) (r : List Nat) : (s.withResets r).hb = s.hb := rfl
@[simp] theorem State.withResets_upc (s : State) (r : List Nat) : (s.withResets r).upc = s.upc := rfl
@[simp] theorem State.withResets_res (s : State) (r : List Nat) : (s.withResets r).res = s.res := rfl
@[simp] theorem State.withResets_trace (s : State) (r : List Nat) : (s.withResets r).trace = s.trace := rfl
@[simp] theorem State.withResets_reg (s : State) (r : List Nat) : (s.withResets r).reg = s.reg := rfl
@[simp] theorem State.withResets_rx (s : State) (r : List Nat) : (s.withResets r).rx = s.rx := rfl
@[simp] theorem State.withResets_host (s : State) (r : List Nat) : (s.withResets r).host = s.host := rfl
@[simp] theorem State.withResets_vars (s : State) (r : List Nat) : (s.withResets r).vars = s.vars := rfl
@[simp] theorem State.withResets_resets (s : State) (r : List Nat) : (s.withResets r).resets = r := rfl

@[simp] theorem State.setPin_din (s : State) (p : Pin) (v : Level) : (s.setPin p v).din = if p = .din then v else s.din := by
  cases p <;> rfl
@[simp] theorem State.setPin_clk (s : State) (p : Pin) (v : Level) : (s.setPin p v).clk = if p = .clk then v else s.clk := by
  cases p <;> rfl
@[simp] theorem State.setPin_cs (s : State) (p : Pin) (v : Level) : (s.setPin p v).cs = if p = .cs then v else s.cs := by
  cases p <;> rfl
@[simp] theorem State.setPin_busy (s : State) (p : Pin) (v : Level) : (s.setPin p v).busy = s.busy := by
  cases p <;> rfl
@[simp] theorem State.setPin_op (s : State) (p : Pin) (v : Level) : (s.setPin p v).op = s.op := by
  cases p <;> rfl
@[simp] theorem State.setPin_ha (s : State) (p : Pin) (v : Level) : (s.setPin p v).ha = s.ha := by
  cases p <;> rfl
@[simp] theorem State.setPin_hb (s : State) (p : Pin) (v : Level) : (s.setPin p v).hb = s.hb := by
  cases p <;> rfl
@[simp] theorem State.setPin_upc (s : State) (p : Pin) (v : Level) : (s.setPin p v).upc = s.upc := by
  cases p <;> rfl
@[simp] theorem State.setPin_res (s : State) (p : Pin) (v : Level) : (s.setPin p v).res = s.res := by
  cases p <;> rfl
@[simp] theorem State.setPin_trace (s : State) (p : Pin) (v : Level) : (s.setPin p v).trace = s.trace := by
  cases p <;> rfl
@[simp] theorem State.setPin_reg (s : State) (p : Pin) (v : Level) : (s.setPin p v).reg = s.reg := by
  cases p <;> rfl
@[simp] theorem State.setPin_rx (s : State) (p : Pin) (v : Level) : (s.setPin p v).rx = s.rx := by
  cases p <;> rfl
@[simp] theorem State.setPin_host (s : State) (p : Pin) (v : Level) : (s.setPin p v).host = s.host := by
  cases p <;> rfl
@[simp] theorem State.setPin_vars (s : State) (p : Pin) (v : Level) : (s.setPin p v).vars = s.vars := by
  cases p <;> rfl
@[simp] theorem State.setPin_resets (s : State) (p : Pin) (v : Level) : (s.setPin p v).resets = s.resets := by
  cases p <;> rfl

/-- A pin write sets its own pin and no other (R12). -/
theorem State.pin_setPin (s : State) (p q : Pin) (v : Level) : (s.setPin p v).pin q = if p = q then v else s.pin q := by
  cases p <;> cases q <;> rfl

@[simp] theorem pinWrite_din (p : Pin) (v : Level) (s : State) : (pinWrite p v s).din = if p = .din then v else s.din := by
  cases p <;> rfl
@[simp] theorem pinWrite_clk (p : Pin) (v : Level) (s : State) : (pinWrite p v s).clk = if p = .clk then v else s.clk := by
  cases p <;> rfl
@[simp] theorem pinWrite_cs (p : Pin) (v : Level) (s : State) : (pinWrite p v s).cs = if p = .cs then v else s.cs := by
  cases p <;> rfl
@[simp] theorem pinWrite_busy (p : Pin) (v : Level) (s : State) : (pinWrite p v s).busy = s.busy := by
  cases p <;> rfl
@[simp] theorem pinWrite_op (p : Pin) (v : Level) (s : State) : (pinWrite p v s).op = s.op := by
  cases p <;> rfl
@[simp] theorem pinWrite_ha (p : Pin) (v : Level) (s : State) : (pinWrite p v s).ha = s.ha := by
  cases p <;> rfl
@[simp] theorem pinWrite_hb (p : Pin) (v : Level) (s : State) : (pinWrite p v s).hb = s.hb := by
  cases p <;> rfl
@[simp] theorem pinWrite_upc (p : Pin) (v : Level) (s : State) : (pinWrite p v s).upc = s.upc := by
  cases p <;> rfl
@[simp] theorem pinWrite_res (p : Pin) (v : Level) (s : State) : (pinWrite p v s).res = s.res := by
  cases p <;> rfl
@[simp] theorem pinWrite_trace (p : Pin) (v : Level) (s : State) : (pinWrite p v s).trace = s.trace ++ [.write p v] := by
  cases p <;> rfl
@[simp] theorem pinWrite_reg (p : Pin) (v : Level) (s : State) : (pinWrite p v s).reg = (observe (.write p v) (s.reg, s.rx)).1 := by
  cases p <;> rfl
@[simp] theorem pinWrite_rx (p : Pin) (v : Level) (s : State) : (pinWrite p v s).rx = (observe (.write p v) (s.reg, s.rx)).2 := by
  cases p <;> rfl
@[simp] theorem pinWrite_host (p : Pin) (v : Level) (s : State) : (pinWrite p v s).host = s.host := by
  cases p <;> rfl
@[simp] theorem pinWrite_vars (p : Pin) (v : Level) (s : State) : (pinWrite p v s).vars = s.vars := by
  cases p <;> rfl
@[simp] theorem pinWrite_resets (p : Pin) (v : Level) (s : State) : (pinWrite p v s).resets = s.resets := by
  cases p <;> rfl

@[simp] theorem resetOp_din (s : State) : (resetOp s).din = false := rfl
@[simp] theorem resetOp_clk (s : State) : (resetOp s).clk = false := rfl
@[simp] theorem resetOp_cs (s : State) : (resetOp s).cs = true := rfl
@[simp] theorem resetOp_busy (s : State) : (resetOp s).busy = false := rfl
@[simp] theorem resetOp_op (s : State) : (resetOp s).op = .wrreg := rfl
@[simp] theorem resetOp_ha (s : State) : (resetOp s).ha = 0x00#8 := rfl
@[simp] theorem resetOp_hb (s : State) : (resetOp s).hb = 0x00#8 := rfl
@[simp] theorem resetOp_upc (s : State) : (resetOp s).upc = 0#6 := rfl
@[simp] theorem resetOp_res (s : State) : (resetOp s).res = 0x00#8 := rfl
@[simp] theorem resetOp_trace (s : State) : (resetOp s).trace = s.trace ++ [.rst] := rfl
@[simp] theorem resetOp_reg (s : State) : (resetOp s).reg = (onRst (s.reg, s.rx)).1 := rfl
@[simp] theorem resetOp_rx (s : State) : (resetOp s).rx = Rx.reset := rfl
@[simp] theorem resetOp_host (s : State) : (resetOp s).host = s.host := rfl
@[simp] theorem resetOp_vars (s : State) : (resetOp s).vars = s.vars := rfl
@[simp] theorem resetOp_resets (s : State) : (resetOp s).resets = s.resets := rfl

end Sys2Proof.Machine
end

