-- ==== Sys2Proof/Laws/Ops.lean ====
section
/-! SUPPORT. One lemma per shared operation that says everything it can do; later proofs cite these and unfold nothing. -/

namespace Sys2Proof.Machine

/-- `Issue` of a pin-writing primitive with the port ready (R18). -/
theorem issuePinOp_ready (k : OpKind) (ha hb : Byte) (s : State) (h : s.busy = false) :
    issuePinOp k ha hb s = .next (s.load k ha hb) := by simp [issuePinOp, portReady, h]

/-- With the port not ready it is refused (R18). -/
theorem issuePinOp_busy (k : OpKind) (ha hb : Byte) (s : State) (h : s.busy = true) :
    issuePinOp k ha hb s = .refused .portNotReady := by simp [issuePinOp, portReady, h]

/-- `Issue` of an encoder primitive with the port ready (R18). -/
theorem issueEncode_ready (b : Byte) (s : State) (h : s.busy = false) : issueEncode b s = .next (s.setRes b) := by
  simp [issueEncode, portReady, h]

theorem issueEncode_busy (b : Byte) (s : State) (h : s.busy = true) : issueEncode b s = .refused .portNotReady := by
  simp [issueEncode, portReady, h]

/-- If `Issue` of a pin-writing primitive answers a next state, the port was ready and that state is the loaded one. -/
theorem issuePinOp_next (k : OpKind) (ha hb : Byte) (s t : State) (h : issuePinOp k ha hb s = .next t) :
    s.busy = false ∧ t = s.load k ha hb := by
  cases hb' : s.busy with
  | true => rw [issuePinOp_busy k ha hb s hb'] at h; cases h
  | false => rw [issuePinOp_ready k ha hb s hb'] at h; cases h; exact ⟨rfl, rfl⟩

theorem issueEncode_next (b : Byte) (s t : State) (h : issueEncode b s = .next t) : s.busy = false ∧ t = s.setRes b := by
  cases hb' : s.busy with
  | true => rw [issueEncode_busy b s hb'] at h; cases h
  | false => rw [issueEncode_ready b s hb'] at h; cases h; exact ⟨rfl, rfl⟩

@[simp] theorem length_pwShift8 (o : BitOrder) (b : Byte) : (pwShift8 o b).length = 24 := rfl

@[simp] theorem length_pwWrreg (a d : Byte) : (pwWrreg a d).length = 50 := rfl

/-- A sequence has 24 or 50 pin writes (R84, R93). -/
theorem length_pwSeq (k : OpKind) (ha hb : Byte) : (pwSeq k ha hb).length = match k with | .shift8 => 24 | .wrreg => 50 := by
  cases k <;> rfl

/-- No sequence is longer than 50, so `UPC` has room for its length. -/
theorem length_pwSeq_le (k : OpKind) (ha hb : Byte) : (pwSeq k ha hb).length ≤ 50 := by
  rw [length_pwSeq]; cases k <;> decide

/-- `Step` inside the sequence is one pin write (R19). -/
theorem microStep_inside (s : State) (h : s.upc.toNat < (pwSeq s.op s.ha s.hb).length) :
    microStep s =
      .next ((pinWrite ((pwSeq s.op s.ha s.hb)[s.upc.toNat]).1 ((pwSeq s.op s.ha s.hb)[s.upc.toNat]).2 s).advance
        (pwSeq s.op s.ha s.hb).length) := by
  simp [microStep, List.getElem?_eq_getElem h]

/-- Everything `Step` can do: one pin write of the sequence, or the fault past its end. -/
theorem microStep_next (s t : State) (h : microStep s = .next t) :
    ∃ w, (pwSeq s.op s.ha s.hb)[s.upc.toNat]? = some w ∧
      t = (pinWrite w.1 w.2 s).advance (pwSeq s.op s.ha s.hb).length := by
  unfold microStep at h
  split at h
  · cases h; exact ⟨_, by assumption, rfl⟩
  · cases h

theorem microStep_not_refused (s : State) (r : Refusal) : microStep s ≠ .refused r := by
  unfold microStep; split <;> simp

end Sys2Proof.Machine
end

