-- ==== Sys2Proof/Laws/PerInstr.lean ====
section
/-! SUPPORT. For every instruction: its word lies in its row of spec/opcode_table.json (R61, R63). -/

namespace Sys2Proof.Laws

/-- A row of the opcode table: how many bits the word has, the mask of its fixed bits, their value. -/
structure TableRow where
  nbits : Nat
  mask : Nat
  value : Nat
  deriving DecidableEq, Repr

/-- The row of each instruction, copied from spec/opcode_table.json. -/
def tableRow : Instr → TableRow
  | .shift8 _ _ => ⟨20, 0xFFE00, 0x10000⟩
  | .wrreg _ _ => ⟨20, 0xF0000, 0x20000⟩
  | .encd _ => ⟨20, 0xFFF00, 0x30000⟩
  | .encc _ => ⟨20, 0xFFF00, 0x40000⟩
  | .wrDig0 _ => ⟨16, 0xFF00, 0x0100⟩
  | .wrDig1 _ => ⟨16, 0xFF00, 0x0200⟩
  | .wrDig2 _ => ⟨16, 0xFF00, 0x0300⟩
  | .wrDig3 _ => ⟨16, 0xFF00, 0x0400⟩
  | .wrDig4 _ => ⟨16, 0xFF00, 0x0500⟩
  | .wrDig5 _ => ⟨16, 0xFF00, 0x0600⟩
  | .wrDig6 _ => ⟨16, 0xFF00, 0x0700⟩
  | .wrDig7 _ => ⟨16, 0xFF00, 0x0800⟩
  | .wrDecode _ => ⟨16, 0xFF00, 0x0900⟩
  | .wrIntens _ => ⟨16, 0xFF00, 0x0A00⟩
  | .wrScan _ => ⟨16, 0xFF00, 0x0B00⟩
  | .wrShdn _ => ⟨16, 0xFF00, 0x0C00⟩
  | .wrDtest _ => ⟨16, 0xFF00, 0x0F00⟩

/-- A presented word lies in a row: it has the row's length, and its fixed bits are the row's. -/
def InRow (r : TableRow) : PortWord → Prop
  | .cmd20 w => r.nbits = 20 ∧ w &&& BitVec.ofNat 20 r.mask = BitVec.ofNat 20 r.value
  | .frame16 w => r.nbits = 16 ∧ w &&& BitVec.ofNat 16 r.mask = BitVec.ofNat 16 r.value
  | .otherLength _ _ => False

/-- The family: the instruction's own word lies in its table row. -/
def EncodingMatchesTable.Statement (i : Instr) : Prop := InRow (tableRow i) (encode i)

/-- The fixed bits of a frame row are its address byte. -/
theorem masked_frame (a d : Byte) : (a ++ d : BitVec 16) &&& 0xFF00#16 = a ++ 0x00#8 := by
  ext i hi
  simp only [BitVec.getElem_and, BitVec.getElem_append]
  interval_cases i <;> simp

/-- The fixed bits of a command row are `op` and the bits of `a` that `m` picks. -/
theorem masked_command (op : BitVec 4) (a b m : Byte) :
    (op ++ a ++ b : BitVec 20) &&& (0xF#4 ++ m ++ 0x00#8) = op ++ (a &&& m) ++ 0x00#8 := by
  ext i hi
  simp only [BitVec.getElem_and, BitVec.getElem_append]
  interval_cases i <;> simp

theorem command_in_row (op : BitVec 4) (a b m : Byte) (r : TableRow) (hn : r.nbits = 20)
    (hm : BitVec.ofNat 20 r.mask = 0xF#4 ++ m ++ 0x00#8) (hv : op ++ (a &&& m) ++ 0x00#8 = BitVec.ofNat 20 r.value) :
    InRow r (commandWord op a b) := by
  refine ⟨hn, ?_⟩
  rw [hm, masked_command, hv]

theorem frame_in_row (a d : Byte) (r : TableRow) (hn : r.nbits = 16) (hm : BitVec.ofNat 16 r.mask = 0xFF00#16)
    (hv : a ++ 0x00#8 = BitVec.ofNat 16 r.value) : InRow r (frameWord a d) := by
  refine ⟨hn, ?_⟩
  rw [hm, masked_frame, hv]

theorem EncodingMatchesTable.shift8 (o : BitOrder) (b : Byte) : EncodingMatchesTable.Statement (.shift8 o b) := by
  cases o <;> exact command_in_row _ _ b 0xFE#8 _ rfl (by simp only [tableRow]; decide) (by simp only [tableRow]; decide)

theorem EncodingMatchesTable.wrreg (a d : Byte) : EncodingMatchesTable.Statement (.wrreg a d) :=
  command_in_row _ a d 0x00#8 _ rfl (by simp only [tableRow]; decide) (by simp only [tableRow, BitVec.and_zero]; decide)

theorem EncodingMatchesTable.encd (d : Byte) : EncodingMatchesTable.Statement (.encd d) :=
  command_in_row _ _ d 0xFF#8 _ rfl (by simp only [tableRow]; decide) (by simp only [tableRow]; decide)

theorem EncodingMatchesTable.encc (x : Byte) : EncodingMatchesTable.Statement (.encc x) :=
  command_in_row _ _ x 0xFF#8 _ rfl (by simp only [tableRow]; decide) (by simp only [tableRow]; decide)

theorem EncodingMatchesTable.wrDig0 (d : Byte) : EncodingMatchesTable.Statement (.wrDig0 d) :=
  frame_in_row _ d _ rfl (by simp only [tableRow]) (by simp only [tableRow]; decide)

theorem EncodingMatchesTable.wrDig1 (d : Byte) : EncodingMatchesTable.Statement (.wrDig1 d) :=
  frame_in_row _ d _ rfl (by simp only [tableRow]) (by simp only [tableRow]; decide)

theorem EncodingMatchesTable.wrDig2 (d : Byte) : EncodingMatchesTable.Statement (.wrDig2 d) :=
  frame_in_row _ d _ rfl (by simp only [tableRow]) (by simp only [tableRow]; decide)

theorem EncodingMatchesTable.wrDig3 (d : Byte) : EncodingMatchesTable.Statement (.wrDig3 d) :=
  frame_in_row _ d _ rfl (by simp only [tableRow]) (by simp only [tableRow]; decide)

theorem EncodingMatchesTable.wrDig4 (d : Byte) : EncodingMatchesTable.Statement (.wrDig4 d) :=
  frame_in_row _ d _ rfl (by simp only [tableRow]) (by simp only [tableRow]; decide)

theorem EncodingMatchesTable.wrDig5 (d : Byte) : EncodingMatchesTable.Statement (.wrDig5 d) :=
  frame_in_row _ d _ rfl (by simp only [tableRow]) (by simp only [tableRow]; decide)

theorem EncodingMatchesTable.wrDig6 (d : Byte) : EncodingMatchesTable.Statement (.wrDig6 d) :=
  frame_in_row _ d _ rfl (by simp only [tableRow]) (by simp only [tableRow]; decide)

theorem EncodingMatchesTable.wrDig7 (d : Byte) : EncodingMatchesTable.Statement (.wrDig7 d) :=
  frame_in_row _ d _ rfl (by simp only [tableRow]) (by simp only [tableRow]; decide)

theorem EncodingMatchesTable.wrDecode (d : Byte) : EncodingMatchesTable.Statement (.wrDecode d) :=
  frame_in_row _ d _ rfl (by simp only [tableRow]) (by simp only [tableRow]; decide)

theorem EncodingMatchesTable.wrIntens (d : Byte) : EncodingMatchesTable.Statement (.wrIntens d) :=
  frame_in_row _ d _ rfl (by simp only [tableRow]) (by simp only [tableRow]; decide)

theorem EncodingMatchesTable.wrScan (d : Byte) : EncodingMatchesTable.Statement (.wrScan d) :=
  frame_in_row _ d _ rfl (by simp only [tableRow]) (by simp only [tableRow]; decide)

theorem EncodingMatchesTable.wrShdn (d : Byte) : EncodingMatchesTable.Statement (.wrShdn d) :=
  frame_in_row _ d _ rfl (by simp only [tableRow]) (by simp only [tableRow]; decide)

theorem EncodingMatchesTable.wrDtest (d : Byte) : EncodingMatchesTable.Statement (.wrDtest d) :=
  frame_in_row _ d _ rfl (by simp only [tableRow]) (by simp only [tableRow]; decide)

end Sys2Proof.Laws
end

