-- ==== Sys2Proof/Laws/Sequences.lean ====
section
/-! SUPPORT. What a run of pin writes does, said once: any number of `Step`s of one operation, and a whole operation. -/

namespace Sys2Proof.Machine

/-- These pin writes, one after the other. -/
def applyWrites (ws : List PinWrite) (s : State) : State := ws.foldl (fun s w => pinWrite w.1 w.2 s) s

theorem applyWrites_cons (w : PinWrite) (ws : List PinWrite) (s : State) :
    applyWrites (w :: ws) s = applyWrites ws (pinWrite w.1 w.2 s) := rfl

/-- Everything a run of pin writes changes: the levels, `TRACE`, and what the receiver makes of the writes. -/
theorem applyWrites_eq (ws : List PinWrite) (s : State) :
    applyWrites ws s =
      { s with
        din := levelAfter .din s.din ws, clk := levelAfter .clk s.clk ws, cs := levelAfter .cs s.cs ws
        trace := s.trace ++ ws.map eventOf
        reg := (observeAll (ws.map eventOf) (s.reg, s.rx)).1
        rx := (observeAll (ws.map eventOf) (s.reg, s.rx)).2 } := by
  induction ws generalizing s with
  | nil => simp [applyWrites, levelAfter]
  | cons w ws ih =>
    rw [applyWrites_cons, ih]
    obtain ⟨p, v⟩ := w
    cases p <;> simp [levelAfter, eventOf, List.append_assoc, pinWrite, State.setPin, State.record]

/-- `k` `Step`s of a running operation that has at least `k` pin writes left. -/
theorem microSteps_run (k : Nat) (s : State) (hb : s.busy = true) (h : s.upc.toNat + k ≤ (pwSeq s.op s.ha s.hb).length) :
    microSteps k s = .next
      { applyWrites (((pwSeq s.op s.ha s.hb).drop s.upc.toNat).take k) s with
        upc := s.upc + BitVec.ofNat 6 k
        busy := if k = 0 then true else decide (s.upc.toNat + k < (pwSeq s.op s.ha s.hb).length) } := by
  induction k generalizing s with
  | zero => simp [microSteps, applyWrites, ← hb]
  | succ k ih =>
    have hl := length_pwSeq_le s.op s.ha s.hb
    have hlt : s.upc.toNat < (pwSeq s.op s.ha s.hb).length := by omega
    rw [microSteps, microStep_inside s hlt]
    simp only
    set w := (pwSeq s.op s.ha s.hb)[s.upc.toNat] with hw
    set s1 := (pinWrite w.1 w.2 s).advance (pwSeq s.op s.ha s.hb).length with hs1
    have hupc : (s.upc + 1#6).toNat = s.upc.toNat + 1 := by
      rw [BitVec.toNat_add]; simp; omega
    have e1 : s1.op = s.op := by simp [hs1]
    have e2 : s1.ha = s.ha := by simp [hs1]
    have e3 : s1.hb = s.hb := by simp [hs1]
    have e4 : s1.upc = s.upc + 1#6 := by simp [hs1]
    have e5 : s1.busy = if s.upc.toNat + 1 = (pwSeq s.op s.ha s.hb).length then false else true := by
      simp [hs1, busyAfterWrite, hupc, hb]
    have hdrop : (pwSeq s.op s.ha s.hb).drop s.upc.toNat = w :: (pwSeq s.op s.ha s.hb).drop (s.upc.toNat + 1) := by
      rw [List.drop_eq_getElem_cons hlt]
    by_cases hk : k = 0
    · subst hk
      simp [microSteps, hdrop, applyWrites, hs1, State.advance, busyAfterWrite, hupc, hb]
      by_cases hh : s.upc.toNat + 1 = (pwSeq s.op s.ha s.hb).length
      · simp [hh]
      · have : s.upc.toNat + 1 < (pwSeq s.op s.ha s.hb).length := by omega
        simp [hh, this]
    · have hne : s.upc.toNat + 1 ≠ (pwSeq s.op s.ha s.hb).length := by omega
      rw [ih s1 (by rw [e5]; simp [hne]) (by rw [e1, e2, e3, e4, hupc]; omega)]
      simp only [e1, e2, e3, e4, hupc, hdrop, List.take_succ_cons, hk, if_false]
      rw [applyWrites_cons w]
      simp only [applyWrites_eq, hs1]
      have : s.upc + 1#6 + BitVec.ofNat 6 k = s.upc + BitVec.ofNat 6 (k + 1) := by
        rw [BitVec.add_assoc, BitVec.ofNat_add]; congr 1; rw [BitVec.add_comm]
      simp [this, State.advance]
      omega

/-- The first `k` pin writes of an operation just accepted. -/
theorem microSteps_load (k : Nat) (op : OpKind) (ha hb : Byte) (s : State) (h : k ≤ (pwSeq op ha hb).length) :
    microSteps k (s.load op ha hb) = .next
      { applyWrites ((pwSeq op ha hb).take k) s with
        op := op, ha := ha, hb := hb, upc := BitVec.ofNat 6 k
        busy := if k = 0 then true else decide (k < (pwSeq op ha hb).length) } := by
  rw [microSteps_run k _ rfl (by simpa using h)]
  simp [applyWrites_eq, State.load]

/-- Running to the end is `n` `Step`s where the first `n - 1` leave the machine busy and the last does not. -/
theorem finish_of_microSteps (n : Nat) (s t : State) (h : microSteps n s = .next t) (hb : t.busy = false)
    (hm : ∀ k < n, ∀ u, microSteps k s = .next u → u.busy = true) : ∀ m, n ≤ m → finish m s = .next t := by
  induction n generalizing s with
  | zero =>
    intro m _
    simp [microSteps] at h
    subst h
    cases m <;> simp [finish, hb]
  | succ n ih =>
    intro m hm'
    obtain ⟨m, rfl⟩ : ∃ m', m = m' + 1 := ⟨m - 1, by omega⟩
    rw [finish, hm 0 (by omega) s rfl]
    simp only [if_true]
    rw [microSteps] at h
    cases hs : microStep s with
    | fault f => rw [hs] at h; cases h
    | refused r => rw [hs] at h; cases h
    | next u =>
      rw [hs] at h
      simp only at h ⊢
      apply ih u h _ m (by omega)
      intro k hk v hv
      apply hm (k + 1) (by omega) v
      rw [microSteps, hs]; exact hv

/-- A pin-writing operation just accepted, run to its end. -/
theorem finish_load (op : OpKind) (ha hb : Byte) (s : State) :
    finish 50 (s.load op ha hb) = .next
      { applyWrites (pwSeq op ha hb) s with
        op := op, ha := ha, hb := hb, upc := BitVec.ofNat 6 (pwSeq op ha hb).length, busy := false } := by
  have hl := length_pwSeq_le op ha hb
  have hp : 0 < (pwSeq op ha hb).length := by rw [length_pwSeq]; cases op <;> decide
  refine finish_of_microSteps (pwSeq op ha hb).length _ _ ?_ rfl ?_ 50 hl
  · rw [microSteps_load _ _ _ _ _ le_rfl]
    simp [Nat.ne_of_gt hp]
  · intro k hk u hu
    rw [microSteps_load _ _ _ _ _ hk.le] at hu
    cases hu
    simp [hk]

/-- Sixteen bits on the wire inside a bracket, for whatever levels they are. -/
theorem observe_bits (m : Memory) (din : Level) (sh : BitVec 16) (cnt : Nat) (bad : Bool)
    (b7 b6 b5 b4 b3 b2 b1 b0 c7 c6 c5 c4 c3 c2 c1 c0 : Level) :
    observeAll (([(Pin.cs, false)] ++ ([b7, b6, b5, b4, b3, b2, b1, b0, c7, c6, c5, c4, c3, c2, c1, c0].flatMap pulse)).map eventOf)
        (m, ⟨true, false, din, sh, cnt, bad⟩) =
      (m, ⟨false, false, c0,
        [b7, b6, b5, b4, b3, b2, b1, b0, c7, c6, c5, c4, c3, c2, c1, c0].foldl shiftIn 0#16, 16, false⟩) := by
  simp [pulse, eventOf, observe, onCs, onDin, onClk]

/-- The sixteen bits of a frame, most significant first, make its word. -/
theorem shiftIn_bits (a d : Byte) :
    [a.getLsbD 7, a.getLsbD 6, a.getLsbD 5, a.getLsbD 4, a.getLsbD 3, a.getLsbD 2, a.getLsbD 1, a.getLsbD 0,
      d.getLsbD 7, d.getLsbD 6, d.getLsbD 5, d.getLsbD 4, d.getLsbD 3, d.getLsbD 2, d.getLsbD 1, d.getLsbD 0].foldl
        shiftIn 0#16 = a ++ d := by
  ext i hi
  rw [BitVec.getElem_append]
  rcases i with _ | _ | _ | _ | _ | _ | _ | _ | _ | _ | _ | _ | _ | _ | _ | _ | i <;> simp [shiftIn]
  omega

/-- The first 49 pin writes of a frame, as a receiver at rest sees them (R92). -/
theorem observe_frame_body (a d : Byte) (m : Memory) (r : Rx) (h1 : r.sel = true) (h2 : r.clk = false) :
    observeAll (((pwWrreg a d).take 49).map eventOf) (m, r) = (m, ⟨false, false, d.getLsbD 0, a ++ d, 16, false⟩) := by
  obtain ⟨sel, clk, din, sh, cnt, bad⟩ := r
  simp only at h1 h2
  subst h1 h2
  rw [← shiftIn_bits]
  exact observe_bits m din sh cnt bad _ _ _ _ _ _ _ _ _ _ _ _ _ _ _ _

/-- All 50 pin writes of a frame, as a receiver at rest sees them (R92). -/
theorem observe_frame (a d : Byte) (m : Memory) (r : Rx) (h1 : r.sel = true) (h2 : r.clk = false) :
    observeAll ((pwWrreg a d).map eventOf) (m, r) =
      (m.write a.toNat d, ⟨true, false, d.getLsbD 0, a ++ d, 16, false⟩) := by
  have e : pwWrreg a d = (pwWrreg a d).take 49 ++ [(.cs, true)] := rfl
  rw [e, List.map_append, observeAll_append, observe_frame_body a d m r h1 h2]
  simp [eventOf, observe, onCs, Rx.wellFormedFrame, memWrite, Rx.address, Rx.data, extract_address, extract_data]

end Sys2Proof.Machine
end

