-- ==== Sys2Proof/Laws/Step.lean ====
section
/-! SUPPORT. What an instruction and a step can do, said once. -/

namespace Sys2Proof.Machine

/-- Everything `exec` can do with a next state: it starts the sequencer or it writes `RES`, and the port was ready (R18). -/
theorem exec_next (i : Instr) (s t : State) (h : exec i s = .next t) :
    s.busy = false ∧
      ((∃ o b, i = .shift8 o b ∧ t = s.load .shift8 (holdingOfOrder o) b) ∨ (∃ a d, t = s.load .wrreg a d) ∨
        (∃ b, t = s.setRes b)) := by
  cases i with
  | shift8 o b => obtain ⟨h1, h2⟩ := issuePinOp_next _ _ _ _ _ h; exact ⟨h1, .inl ⟨o, b, rfl, h2⟩⟩
  | encd d => obtain ⟨h1, h2⟩ := issueEncode_next _ _ _ h; exact ⟨h1, .inr (.inr ⟨_, h2⟩)⟩
  | encc x => obtain ⟨h1, h2⟩ := issueEncode_next _ _ _ h; exact ⟨h1, .inr (.inr ⟨_, h2⟩)⟩
  | wrreg a d => obtain ⟨h1, h2⟩ := issuePinOp_next _ _ _ _ _ h; exact ⟨h1, .inr (.inl ⟨_, _, h2⟩)⟩
  | wrDig0 d | wrDig1 d | wrDig2 d | wrDig3 d | wrDig4 d | wrDig5 d | wrDig6 d | wrDig7 d | wrDecode d | wrIntens d
  | wrScan d | wrShdn d | wrDtest d =>
    obtain ⟨h1, h2⟩ := issuePinOp_next _ _ _ _ _ h; exact ⟨h1, .inr (.inl ⟨_, _, h2⟩)⟩

/-- No instruction faults (R140). -/
theorem exec_not_fault (i : Instr) (s : State) (f : Fault) : exec i s ≠ .fault f := by
  cases i <;>
    simp only [exec, execShift8, execWrreg, execWrDig0, execWrDig1, execWrDig2, execWrDig3, execWrDig4, execWrDig5, execWrDig6,
      execWrDig7, execWrDecode, execWrIntens, execWrScan, execWrShdn, execWrDtest, execEncd, execEncc, issueFrame, issuePinOp,
      issueEncode] <;> split <;> simp

/-- Presenting `WRREG` with a next state: both operands stood for a byte, and the word of those bytes was presented (R72). -/
theorem presentWrreg_next (a d : Option Byte) (s t : State) (h : presentWrreg a d s = .next t) :
    ∃ x y, a = some x ∧ d = some y ∧ presentWord (encode (.wrreg x y)) s = .next t := by
  cases a with
  | none => cases h
  | some x =>
    cases d with
    | none => cases h
    | some y => exact ⟨x, y, rfl, rfl, h⟩

/-- Presenting `WRREG` with operands that stand for bytes presents the word of those bytes (R72). -/
@[simp] theorem presentWrreg_bytes (x y : Byte) (s : State) :
    presentWrreg (some x) (some y) s = presentWord (encode (.wrreg x y)) s := rfl

@[simp] theorem operand_byte (s : State) (b : Byte) : s.operand (.byte b) = some b := rfl
@[simp] theorem operand_res (s : State) : s.operand .res = some s.res := rfl
@[simp] theorem operand_var (s : State) (v : Nat) : s.operand (.var v) = s.vars.read v := rfl

/-- Everything the host's next action can do with a next state. -/
theorem hostMove_next (s t : State) (h : hostMove s = .next t) :
    t = s ∨
    (∃ i rest, exec i (s.withHost rest) = .next t) ∨
    (∃ rest v b, t = (s.withHost rest).setVar v b) ∨
    (∃ rest, t = s.withHost rest) := by
  have word : ∀ w rest, presentWord w (s.withHost rest) = .next t → ∃ i rest, exec i (s.withHost rest) = .next t := by
    intro w rest hw
    unfold presentWord at hw
    split at hw
    · exact ⟨_, rest, hw⟩
    · cases hw
  unfold hostMove at h
  split at h
  · cases h; exact .inl rfl
  · exact .inr (.inl (word _ _ h))
  · obtain ⟨x, y, -, -, hw⟩ := presentWrreg_next _ _ _ _ h
    exact .inr (.inl (word _ _ hw))
  · cases h; exact .inr (.inr (.inl ⟨_, _, _, rfl⟩))
  · split at h
    · cases h; exact .inr (.inr (.inr ⟨_, rfl⟩))
    · cases h
  · cases h; exact .inr (.inr (.inr ⟨_, rfl⟩))

/-- With no reset due an idle machine's step is the host's move (R179). -/
theorem step_idle (s : State) (hr : resetDue s.resets = false) (hb : s.busy = false) :
    step s = hostMove (s.withResets (tickResets s.resets)) := by
  unfold step transition move
  simp [hr, hb]

/-- With no reset due a busy machine's step is one pin write (R19, R145). -/
theorem step_busy (s : State) (hr : resetDue s.resets = false) (hb : s.busy = true) :
    step s = microStep (s.withResets (tickResets s.resets)) := by
  unfold step transition move
  simp [hr, hb]

/-- Everything a step can do with a next state: a reset, a pin write, an instruction accepted, or a move of the host alone. -/
theorem step_next (s t : State) (h : step s = .next t) :
    (resetDue s.resets = true ∧ t = resetOp (s.withResets s.resets.tail)) ∨
    (resetDue s.resets = false ∧ s.busy = true ∧ microStep (s.withResets (tickResets s.resets)) = .next t) ∨
    (resetDue s.resets = false ∧ s.busy = false ∧ hostMove (s.withResets (tickResets s.resets)) = .next t) := by
  unfold step transition at h
  cases hr : resetDue s.resets with
  | true => rw [hr] at h; simp only [if_true] at h; cases h; exact .inl ⟨rfl, rfl⟩
  | false =>
    rw [hr] at h
    simp only [Bool.false_eq_true, if_false] at h
    unfold move at h
    cases hb : s.busy with
    | true => rw [State.withResets_busy, hb] at h; exact .inr (.inl ⟨rfl, rfl, h⟩)
    | false => rw [State.withResets_busy, hb] at h; exact .inr (.inr ⟨rfl, rfl, h⟩)

/-- `finish` does nothing to an idle machine. -/
theorem finish_idle (fuel : Nat) (s : State) (h : s.busy = false) : finish fuel s = .next s := by
  cases fuel <;> simp [finish, h]

/-- One step, then the rest of the run. -/
theorem run_succ_of_step (k : Nat) (s t : State) (h : step s = .next t) : run (k + 1) s = run k t := by
  simp [run, h]

/-- A run goes on where its first part left off. -/
theorem run_add (m n : Nat) (s t : State) (h : run m s = .next t) : run (m + n) s = run n t := by
  induction m generalizing s with
  | zero => cases h; rw [Nat.zero_add]
  | succ m ih =>
    rw [Nat.succ_add]
    cases hs : step s with
    | next u => rw [run_succ_of_step _ _ _ hs] at h ⊢; exact ih u h
    | fault f => simp [run, hs] at h
    | refused r => simp [run, hs] at h

theorem core_run_next (M : Host.Core) (k : Nat) (s t : M.State) (h : M.step s = .next t) :
    Host.Core.run M (k + 1) s = Host.Core.run M k t := by simp [Host.Core.run, h]

theorem core_run_fault (M : Host.Core) (k : Nat) (s : M.State) (f : M.Fault) (h : M.step s = .fault f) :
    Host.Core.run M (k + 1) s = .fault f := by simp [Host.Core.run, h]

theorem core_run_refused (M : Host.Core) (k : Nat) (s : M.State) (r : M.Refusal) (h : M.step s = .refused r) :
    Host.Core.run M (k + 1) s = .refused r := by simp [Host.Core.run, h]

/-- `run` is the run of the host's interface. -/
theorem run_eq_core_run (k : Nat) (s : State) : run k s = Host.Core.run Sys2Proof.core k s := by
  induction k generalizing s with
  | zero => rfl
  | succ k ih =>
    cases hs : step s with
    | next t => exact ((run_succ_of_step k s t hs).trans (ih t)).trans (core_run_next Sys2Proof.core k s t hs).symm
    | fault f => exact (show run (k + 1) s = .fault f by simp [run, hs]).trans (core_run_fault Sys2Proof.core k s f hs).symm
    | refused r => exact (show run (k + 1) s = .refused r by simp [run, hs]).trans (core_run_refused Sys2Proof.core k s r hs).symm

end Sys2Proof.Machine
end

