-- ==== Sys2Proof/Tests/Slice0.lean ====
section
/-! SUPPORT. The model's own tests. Expected results are written out from spec/95_test_vectors.md (V) and the rules (R); the witnesses of
the last part show that the hypotheses of the obligations can be met together. -/

namespace Sys2Proof.Tests

open Sys2Proof Sys2Proof.Machine Sys2Proof.Claims

/-! ## Well-formedness: one ill-formed term for each check -/

theorem test_ill_time_hours : MacroOp.wellFormed (.time 256 0 0 0) = false := by decide

theorem test_ill_time_minutes : MacroOp.wellFormed (.time 0 256 0 0) = false := by decide

theorem test_ill_time_seconds : MacroOp.wellFormed (.time 0 0 256 0) = false := by decide

theorem test_ill_time_hundredths : MacroOp.wellFormed (.time 0 0 0 256) = false := by decide

theorem test_ill_date_day : MacroOp.wellFormed (.date 256 0 0) = false := by decide

theorem test_ill_date_month : MacroOp.wellFormed (.date 0 256 0) = false := by decide

theorem test_ill_date_year : MacroOp.wellFormed (.date 0 0 65536) = false := by decide

theorem test_ill_coord_too_large : MacroOp.wellFormed (.coord 0x4E#8 10000000) = false := by decide

theorem test_ill_coord_too_small : MacroOp.wellFormed (.coord 0x53#8 (-1000000)) = false := by decide

theorem test_ill_length : PortWord.hasAFormat (.otherLength 8 0) = false := by decide

theorem test_well_formed_edges : MacroOp.wellFormed (.time 255 255 255 255) = true ∧ MacroOp.wellFormed (.date 255 255 65535) = true ∧
    MacroOp.wellFormed (.coord 0x45#8 9999999) = true ∧ MacroOp.wellFormed (.coord 0x53#8 (-999999)) = true := by decide

theorem test_undocumented_time : MacroOp.documented (.time 100 0 0 0) = false := by decide

theorem test_undocumented_date : MacroOp.documented (.date 1 1 10000) = false := by decide

/-! ## Decoding: each word written out bit by bit from R61 and R63 (the operands of R63, V1, V8) -/

theorem test_decode_shift8_msb : decode (.cmd20 0b00010000000010110100#20) = .op (.shift8 .msb 0xB4#8) := by decide

theorem test_decode_shift8_lsb : decode (.cmd20 0b00010000000110100101#20) = .op (.shift8 .lsb 0xA5#8) := by decide

theorem test_decode_wrreg : decode (.cmd20 0b00100000101000001111#20) = .op (.wrreg 0x0A#8 0x0F#8) := by decide

theorem test_decode_encd : decode (.cmd20 0b00110000000000000111#20) = .op (.encd 0x07#8) := by decide

theorem test_decode_encc : decode (.cmd20 0b01000000000010110001#20) = .op (.encc 0xB1#8) := by decide

theorem test_decode_wrDig0 : decode (.frame16 0b0000000110000000#16) = .op (.wrDig0 0x80#8) := by decide

theorem test_decode_wrDig1 : decode (.frame16 0b0000001000000000#16) = .op (.wrDig1 0x00#8) := by decide

theorem test_decode_wrDig2 : decode (.frame16 0b0000001111111111#16) = .op (.wrDig2 0xFF#8) := by decide

theorem test_decode_wrDig3 : decode (.frame16 0b0000010010000000#16) = .op (.wrDig3 0x80#8) := by decide

theorem test_decode_wrDig4 : decode (.frame16 0b0000010100000001#16) = .op (.wrDig4 0x01#8) := by decide

theorem test_decode_wrDig5 : decode (.frame16 0b0000011001111111#16) = .op (.wrDig5 0x7F#8) := by decide

theorem test_decode_wrDig6 : decode (.frame16 0b0000011110000000#16) = .op (.wrDig6 0x80#8) := by decide

theorem test_decode_wrDig7 : decode (.frame16 0b0000100000000000#16) = .op (.wrDig7 0x00#8) := by decide

theorem test_decode_wrDecode : decode (.frame16 0b0000100100000000#16) = .op (.wrDecode 0x00#8) := by decide

theorem test_decode_wrIntens : decode (.frame16 0b0000101000001111#16) = .op (.wrIntens 0x0F#8) := by decide

theorem test_decode_wrScan : decode (.frame16 0b0000101100000111#16) = .op (.wrScan 0x07#8) := by decide

theorem test_decode_wrShdn : decode (.frame16 0b0000110000000001#16) = .op (.wrShdn 0x01#8) := by decide

theorem test_decode_wrDtest : decode (.frame16 0b0000111100000000#16) = .op (.wrDtest 0x00#8) := by decide

theorem test_decode_unlisted_frame : decode (.frame16 0b0000110101010101#16) = .op (.wrreg 0x0D#8 0x55#8) := by decide

theorem test_reserved_op0 : decode (.cmd20 0b00000000000000000000#20) = .rejected .reservedOp := by decide

theorem test_reserved_op5 : decode (.cmd20 0b01010000000000000000#20) = .rejected .reservedOp := by decide

theorem test_reserved_opF : decode (.cmd20 0b11111111111111111111#20) = .rejected .reservedOp := by decide

theorem test_reserved_shift8 : decode (.cmd20 0b00010000001000000000#20) = .rejected .shift8ReservedBits := by decide

theorem test_reserved_encd : decode (.cmd20 0b00110000000100000111#20) = .rejected .encdReservedBits := by decide

theorem test_reserved_encc : decode (.cmd20 0b01001000000000110001#20) = .rejected .enccReservedBits := by decide

theorem test_table_words : decodeTableWord 20 0x101A5 = some (.shift8 .lsb 0xA5#8) ∧ decodeTableWord 24 0x20A0F = some (.wrreg 0x0A#8 0x0F#8) ∧
    decodeTableWord 16 0x0A0F = some (.wrIntens 0x0F#8) ∧ decodeTableWord 24 0x1101A5 = none ∧ decodeTableWord 8 0x10 = none := by decide

/-! ## One step of each instruction, from reset, by its table word -/

/-- After reset with this one word presented. -/
def presented (nbits w : Nat) : State := State.reset.withFetchWord nbits w

/-- After reset with a pin-writing operation just accepted (R18, V3c). -/
def accepted (k : OpKind) (ha hb : Byte) : State := { State.reset with op := k, ha := ha, hb := hb, upc := 0#6, busy := true }

theorem test_step_shift8_msb : step (presented 20 0x100B4) = .next (accepted .shift8 0x00#8 0xB4#8) := rfl

theorem test_step_shift8_lsb : step (presented 20 0x101B4) = .next (accepted .shift8 0x01#8 0xB4#8) := rfl

theorem test_step_wrreg : step (presented 20 0x20A0F) = .next (accepted .wrreg 0x0A#8 0x0F#8) := rfl

theorem test_step_wrreg_unlisted : step (presented 20 0x2FFFF) = .next (accepted .wrreg 0xFF#8 0xFF#8) := rfl

theorem test_step_encd : step (presented 20 0x30007) = .next { State.reset with res := (Config.digitFont 7).setWidth 8 } := rfl

theorem test_step_encd_out_of_range : step ((presented 20 0x3000A).setRes 0xFF#8) = .next State.reset := rfl

theorem test_step_encc_space_point : step (presented 20 0x400A0) = .next { State.reset with res := 0x80#8 } := rfl

theorem test_step_encc : step (presented 20 0x400B1) = .next { State.reset with res := 0x80#8 ||| (Config.asciiFontRaw 0x31#7).setWidth 8 } :=
  rfl

theorem test_step_wrDig0 : step (presented 16 0x0180) = .next (accepted .wrreg 0x01#8 0x80#8) := rfl

theorem test_step_wrDig1 : step (presented 16 0x0200) = .next (accepted .wrreg 0x02#8 0x00#8) := rfl

theorem test_step_wrDig2 : step (presented 16 0x03FF) = .next (accepted .wrreg 0x03#8 0xFF#8) := rfl

theorem test_step_wrDig3 : step (presented 16 0x0480) = .next (accepted .wrreg 0x04#8 0x80#8) := rfl

theorem test_step_wrDig4 : step (presented 16 0x0501) = .next (accepted .wrreg 0x05#8 0x01#8) := rfl

theorem test_step_wrDig5 : step (presented 16 0x067F) = .next (accepted .wrreg 0x06#8 0x7F#8) := rfl

theorem test_step_wrDig6 : step (presented 16 0x0780) = .next (accepted .wrreg 0x07#8 0x80#8) := rfl

theorem test_step_wrDig7 : step (presented 16 0x0800) = .next (accepted .wrreg 0x08#8 0x00#8) := rfl

theorem test_step_wrDecode : step (presented 16 0x0900) = .next (accepted .wrreg 0x09#8 0x00#8) := rfl

theorem test_step_wrIntens : step (presented 16 0x0A0F) = .next (accepted .wrreg 0x0A#8 0x0F#8) := rfl

theorem test_step_wrScan : step (presented 16 0x0B07) = .next (accepted .wrreg 0x0B#8 0x07#8) := rfl

theorem test_step_wrShdn : step (presented 16 0x0C01) = .next (accepted .wrreg 0x0C#8 0x01#8) := rfl

theorem test_step_wrDtest : step (presented 16 0x0F00) = .next (accepted .wrreg 0x0F#8 0x00#8) := rfl

theorem test_step_reserved_word : step (presented 20 0x50000) = .refused (.reservedWord .reservedOp) := rfl

theorem test_step_busy_port : exec (.encd 0x01#8) (accepted .wrreg 0x0A#8 0x0F#8) = .refused .portNotReady := rfl

/-- V3c: the first `Step` of `SHIFT8 MSB, 0xB4` puts bit 7 on the data line and counts it. -/
theorem test_first_pin_write : step (accepted .shift8 0x00#8 0xB4#8) = .next
    { accepted .shift8 0x00#8 0xB4#8 with
      din := true, upc := 1#6, trace := [.write .din true], rx := { Rx.reset with din := true } } := rfl

/-- V3c: after 24 pin writes `BUSY` is 0. -/
theorem test_last_pin_write : ∃ t, step { accepted .shift8 0x00#8 0xB4#8 with upc := 23#6, clk := true } = .next t ∧
    t.busy = false ∧ t.upc = 24#6 ∧ t.clk = false := ⟨_, rfl, rfl, rfl, rfl⟩

/-! ## Pin-write sequences -/

/-- V1. -/
theorem test_pw_shift8_msb : pwShift8 .msb 0xB4#8 = ([true, false, true, true, false, true, false, false].flatMap fun v => [(.din, v), (.clk, true), (.clk, false)]) := by decide

/-- V2. -/
theorem test_pw_shift8_lsb : pwShift8 .lsb 0xB4#8 = ([false, false, true, false, true, true, false, true].flatMap fun v => [(.din, v), (.clk, true), (.clk, false)]) := by decide

/-- V4. -/
theorem test_pw_wrreg : pwWrreg 0x0A#8 0x0F#8 = [(.cs, false)] ++
    (([false, false, false, false, true, false, true, false] ++
      [false, false, false, false, true, true, true, true] : List Level).flatMap
        fun v => [(.din, v), (.clk, true), (.clk, false)]) ++ [(.cs, true)] := by decide

/-- V5. -/
theorem test_pw_wrreg_spots : (pwWrreg 0x0A#8 0x0F#8)[0]? = some (.cs, false) ∧ (pwWrreg 0x0A#8 0x0F#8)[13]? = some (.din, true) ∧
    (pwWrreg 0x0A#8 0x0F#8)[25]? = some (.din, false) ∧ (pwWrreg 0x0A#8 0x0F#8)[37]? = some (.din, true) ∧
    (pwWrreg 0x0A#8 0x0F#8)[48]? = some (.clk, false) ∧ (pwWrreg 0x0A#8 0x0F#8)[49]? = some (.cs, true) := by decide

/-! ## The receiver on raw traces (V70 to V77): each starts at rest with one known register -/

/-- A target at rest that knows register 0x0A. -/
def known : Memory × Rx := ([(0x0A, 0x03#8)], Rx.reset)

/-- The sixteen pulses of the frame 0x0A0F, without the bracket. -/
def body : List Event := (((pwWrreg 0x0A#8 0x0F#8).drop 1).take 48).map eventOf

theorem test_v4_frame : observeAll ([.write .cs false] ++ body ++ [.write .cs true]) known = ([(0x0A, 0x0F#8)], ⟨true, false, true, 0x0A0F#16, 16, false⟩) := by decide

theorem test_v70_seventeen : (observeAll ([.write .cs false] ++ body ++ [.write .din true, .write .clk true, .write .clk false, .write .cs true]) known).1 = [] := by decide

theorem test_v71_eight : (observeAll ([.write .cs false] ++ body.take 24 ++ [.write .cs true]) known).1 = [] := by decide

theorem test_v72_empty : (observeAll [.write .cs false, .write .cs true] known).1 = [] := by decide

theorem test_v73_data_moved : (observeAll [.write .cs false, .write .din false, .write .clk true, .write .din true] known).2.bad = true := by decide

theorem test_v73_data_rewritten : (observeAll [.write .cs false, .write .din false, .write .clk true, .write .din false] known).2.bad = false := by decide

theorem test_v74_rise_with_clock : (observeAll ([.write .cs false] ++ body.take 47 ++ [.write .cs true]) known).1 = [] := by decide

theorem test_v75_repeated_fall : (observeAll ([.write .cs false, .write .cs false] ++ body ++ [.write .cs true]) known).1 = [(0x0A, 0x0F#8)] := by decide

theorem test_v76_pulse_outside : (observeAll [.write .clk true] known).1 = [] ∧ (observeAll [.write .din true] known).1 = known.1 := by decide

theorem test_v77_clock_high : (observeAll ([.write .cs false] ++ body ++ [.write .cs true]) (known.1, ⟨true, true, false, 0#16, 0, false⟩)).1 = [] := by decide

theorem test_v80_reset_inside : (observeAll ([.write .cs false] ++ body ++ [.rst]) known).1 = [] ∧ observeAll [.rst] known = known := by decide

/-! ## Macro operations -/

/-- V6. -/
theorem test_init : expand 0 .init = .ok [.present (.cmd20 0x20F00#20), .present (.cmd20 0x20C01#20), .present (.cmd20 0x20B07#20), .present (.cmd20 0x20A0F#20), .present (.cmd20 0x20900#20)] := by rfl

/-- V31. -/
theorem test_display : expand 0 (.display 0xFF#8 0x00#8 0xFF#8 0x00#8 0x80#8 0x7F#8 0x00#8 0xFF#8) = .ok
    [.present (.cmd20 0x208FF#20), .present (.cmd20 0x20700#20), .present (.cmd20 0x206FF#20), .present (.cmd20 0x20500#20),
     .present (.cmd20 0x20480#20), .present (.cmd20 0x2037F#20), .present (.cmd20 0x20200#20), .present (.cmd20 0x201FF#20)] := by rfl

/-- V35. -/
theorem test_text : expand 0 (.text [0x48#8, 0x69#8]) = .ok
    [.present (.cmd20 0x40048#20), .presentWrreg (.byte 0x08#8) .res,
     .present (.cmd20 0x40069#20), .presentWrreg (.byte 0x07#8) .res,
     .present (.cmd20 0x40020#20), .presentWrreg (.byte 0x06#8) .res,
     .present (.cmd20 0x40020#20), .presentWrreg (.byte 0x05#8) .res,
     .present (.cmd20 0x40020#20), .presentWrreg (.byte 0x04#8) .res,
     .present (.cmd20 0x40020#20), .presentWrreg (.byte 0x03#8) .res,
     .present (.cmd20 0x40020#20), .presentWrreg (.byte 0x02#8) .res,
     .present (.cmd20 0x40020#20), .presentWrreg (.byte 0x01#8) .res] := by rfl

/-- V41. -/
theorem test_time : timeDigits 12 34 56 78 =
    [(1, false), (2, true), (3, false), (4, true), (5, false), (6, true), (7, false), (8, false)] := by decide

/-- V43. -/
theorem test_time_above : timeDigits 0 123 0 0 =
    [(0, false), (0, true), (12, false), (3, true), (0, false), (0, true), (0, false), (0, false)] := by decide

/-- V45. -/
theorem test_date : dateDigits 25 12 2024 =
    [(2, false), (5, true), (1, false), (2, true), (2, false), (0, false), (2, false), (4, false)] := by decide

/-- V47. -/
theorem test_date_year_above : yearDigits 12345 = [(12, false), (3, false), (4, false), (5, false)] := by decide

theorem test_coord_v50 : coordText 0x4E#8 (dec 52123) = [0x4E#8, 0x20#8, 0x20#8, 0x35#8, 0xB2#8, 0x31#8, 0x32#8, 0x33#8] := by decide

theorem test_coord_v51 : coordText 0x45#8 (dec 500) = [0x45#8, 0x20#8, 0x20#8, 0x20#8, 0xA0#8, 0x35#8, 0x30#8, 0x30#8] := by decide

theorem test_coord_v52 : coordText 0x53#8 (dec (-123)) = [0x53#8, 0x20#8, 0x20#8, 0x20#8, 0xAD#8, 0x31#8, 0x32#8, 0x33#8] := by decide

theorem test_coord_v53 : coordText 0x4E#8 (dec 0) = [0x4E#8, 0x20#8, 0x20#8, 0x20#8, 0xA0#8, 0x20#8, 0x20#8, 0x30#8] := by decide

theorem test_coord_v54 : coordText 0x45#8 (dec 9999999) = [0x45#8, 0x39#8, 0x39#8, 0x39#8, 0xB9#8, 0x39#8, 0x39#8, 0x39#8] := by decide

theorem test_coord_v55 : coordText 0x53#8 (dec (-999999)) = [0x53#8, 0x2D#8, 0x39#8, 0x39#8, 0xB9#8, 0x39#8, 0x39#8, 0x39#8] := by decide

theorem test_coord_v56 : coordText 0x45#8 (dec (-5)) = [0x45#8, 0x20#8, 0x20#8, 0x20#8, 0xA0#8, 0x20#8, 0x2D#8, 0x35#8] := by decide

theorem test_v57_large : expand 0 (.coord 0x4E#8 10000000) = .error .coordDoesNotFit := rfl

theorem test_v57_small : expand 0 (.coord 0x53#8 (-1000000)) = .error .coordDoesNotFit := rfl

theorem test_v60_bright : expand 0 (.bright 15) = .ok [.present (.cmd20 0x20A0F#20)] := rfl

theorem test_v61_bright : expand 0 (.bright 16) = .ok [] := rfl

theorem test_v62_bright : expand 0 (.bright (-1)) = .ok [] := rfl

theorem test_v63_bright : expand 0 (.bright 0) = .ok [.present (.cmd20 0x20A00#20)] := rfl

/-- R116, R58: adding the decimal point to a pattern sets its top bit. -/
theorem test_add_point : addPoint 0x7E#8 = 0xFE#8 ∧ addPoint 0x00#8 = 0x80#8 := by decide

/-! ## Witnesses: concrete states and operands that meet the hypotheses of the obligations -/

/-- At rest after reset, with these host actions. -/
def calling (m : MacroOp) : State := { State.reset with host := [.call m] }

/-- At rest, with a target that is configured and shows a byte on Digit 7. -/
def configured : State := { State.reset with reg := [(0x08, 0xFE#8), (0x09, 0x00#8), (0x0A, 0x0F#8), (0x0B, 0x07#8), (0x0C, 0x01#8), (0x0F, 0x00#8)] }

/-- A frame cut after some of its pin writes; with 50, the frame is over. -/
def inFrame (k : Nat) : State :=
  { applyWrites ((pwWrreg 0x0A#8 0x0F#8).take k) State.reset with
    op := .wrreg, ha := 0x0A#8, hb := 0x0F#8, upc := BitVec.ofNat 6 k, busy := decide (k < 50) }

/-- A bare `SHIFT8` cut after some of its pin writes. -/
def inShift (k : Nat) : State :=
  { applyWrites ((pwShift8 .lsb 0xB4#8).take k) State.reset with
    op := .shift8, ha := 0x01#8, hb := 0xB4#8, upc := BitVec.ofNat 6 k, busy := decide (k < 24) }

/-- Reset memory is in canonical form. -/
theorem test_reset_memory : State.reset.reg.wf = true ∧ State.reset.vars.wf = true := by decide

/-- The hypotheses that name an idle state, `BUSY = 0`, are met right after reset. -/
theorem witness_idle : State.reset.busy = false ∧ resetDue State.reset.resets = false := by decide

/-- AtRest: WholeFrameWritesItsRegister, NamedFramesWriteTheirRegisters, FrameLeavesOtherRegistersAlone, LastFrameToAnAddressWins,
MeaningFollowsTheRegisterMap, BareShiftMakesTheTargetUnknown. -/
theorem witness_at_rest : AtRest State.reset := ⟨rfl, rfl, rfl, rfl, rfl⟩

/-- AtRest of a state that is not the reset state. -/
theorem witness_at_rest_configured : AtRest configured ∧ configured.target .intensity = some 0x0F#8 := ⟨⟨rfl, rfl, rfl, rfl, rfl⟩, rfl⟩

/-- DueResetTakesTheResetValues, inside a frame and outside one. -/
theorem witness_due_reset :
    ({ inFrame 20 with resets := [0, 3] } : State).resets = 0 :: [3] ∧ (inFrame 20).rx.sel = false ∧
    ({ configured with resets := [0] } : State).resets = 0 :: [] ∧ configured.rx.sel = true := by decide

/-- ResetInsideAFrameMakesTheTargetUnknown, at each edge of its three cases. -/
theorem witness_reset_inside : AtRest configured ∧ 0 ≤ 50 ∧ (1 ≤ 50 ∧ 1 < 50) ∧ (49 ≤ 50 ∧ 49 < 50) ∧ 50 ≤ 50 :=
  ⟨⟨rfl, rfl, rfl, rfl, rfl⟩, by decide⟩

theorem witness_decode_of_encode : (Instr.shift8 .lsb 0xA5#8).wellFormed = true := by decide

theorem witness_encode_of_decode : decode (.cmd20 0x101A5#20) = .op (.shift8 .lsb 0xA5#8) := by decide

/-- ExactlyTheReservedWordsAreRefused: its second half on a state and a word. -/
theorem witness_reserved :
    let s : State := { State.reset with host := [.present (.cmd20 0x30100#20)] }
    s.busy = false ∧ resetDue s.resets = false ∧ s.host = .present (.cmd20 0x30100#20) :: [] ∧
      decode (.cmd20 0x30100#20) = .rejected .encdReservedBits := by decide

/-- The edges of its first half: `op` 0, 5 and 15, and each reserved `a`, against the words next to them. -/
theorem witness_reserved_edges :
    (decode (.cmd20 0x4FFFF#20)).instr? = none ∧ (decode (.cmd20 0x400FF#20)).instr? = some (.encc 0xFF#8) ∧
    (decode (.cmd20 0x10200#20)).instr? = none ∧ (decode (.cmd20 0x101FF#20)).instr? = some (.shift8 .lsb 0xFF#8) ∧
    (decode (.cmd20 0x0FFFF#20)).instr? = none ∧ (decode (.cmd20 0x50000#20)).instr? = none ∧
    (decode (.cmd20 0x2FFFF#20)).instr? = some (.wrreg 0xFF#8 0xFF#8) := by decide

theorem witness_frame_words : 0x0D#8 ∉ namedFrames.map Prod.snd ∧ 0x00#8 ∉ namedFrames.map Prod.snd ∧
    0x10#8 ∉ namedFrames.map Prod.snd ∧ 0x0F#8 ∈ namedFrames.map Prod.snd := by decide

theorem witness_named_frames : AtRest configured ∧ configured.busy = false ∧ ((.wrDig0, 0x01#8) : (Byte → Instr) × Byte) ∈ namedFrames ∧
    ((.wrDtest, 0x0F#8) : (Byte → Instr) × Byte) ∈ namedFrames :=
  ⟨⟨rfl, rfl, rfl, rfl, rfl⟩, rfl, by simp [namedFrames], by simp [namedFrames]⟩

/-- ResIsAnOperandOfWrreg: `WRREG RES, RES`, and an operand the host never filled. -/
def writing (a d : WrregOperand) : State := { configured with res := 0x01#8, host := [.presentWrreg a d] }

theorem witness_res_operand : AtRest (writing .res .res) ∧ (writing .res .res).resets = [] ∧
    (writing .res .res).host = .presentWrreg .res .res :: [] ∧ (writing .res .res).operand .res = some 0x01#8 :=
  ⟨⟨rfl, rfl, rfl, rfl, rfl⟩, rfl, rfl, rfl⟩

theorem witness_unset_operand : AtRest (writing (.byte 0x01#8) (.var 0)) ∧ (writing (.byte 0x01#8) (.var 0)).vars.read 0 = none :=
  ⟨⟨rfl, rfl, rfl, rfl, rfl⟩, rfl⟩

theorem test_res_as_address : step (writing .res (.byte 0x7E#8)) = .next
    { configured with res := 0x01#8, op := .wrreg, ha := 0x01#8, hb := 0x7E#8, upc := 0#6, busy := true } := rfl

/-- ExactlyTheReservedWordsAreRefused: a word of 8 bits, and one of 24 whose upper bits are no part of a command word. -/
theorem witness_no_such_length : decode (portWordOfBits 8 0x10) = .rejected .noSuchLength ∧
    decode (.otherLength 15 0) = .rejected .noSuchLength ∧ (15 ≠ 16 ∧ 15 ≠ 20 ∧ 15 ≠ 24) := by decide

theorem witness_step_runs :
    let s : State := { configured with host := [.present (.frame16 0x0A0F#16), .wait], resets := [5] }
    s.busy = false ∧ resetDue s.resets = false ∧ s.host = .present (.frame16 0x0A0F#16) :: [.wait] ∧
      decode (.frame16 0x0A0F#16) = .op (.wrIntens 0x0F#8) := by decide

/-- BusyStepIsOnePinWrite, at the first and the last pin write of either operation. -/
theorem witness_busy_step :
    ((inFrame 0).busy = true ∧ resetDue (inFrame 0).resets = false ∧ (inFrame 0).upc.toNat < 50) ∧
    ((inFrame 49).busy = true ∧ resetDue (inFrame 49).resets = false ∧ (inFrame 49).upc.toNat < 50) ∧
    ((inShift 0).busy = true ∧ (inShift 0).upc.toNat < 24) ∧ ((inShift 23).busy = true ∧ (inShift 23).upc.toNat < 24) := by decide

theorem witness_pin_write : (Pin.clk : Pin) ≠ Pin.cs := by decide

theorem witness_busy_port : (accepted .wrreg 0x01#8 0x02#8).busy = true := rfl

/-- EncdWritesTheDigitPattern: both sides of its case at the edge. -/
theorem witness_encd : State.reset.busy = false ∧ (0x09#8 : Byte).toNat < 10 ∧ ¬ (0x0A#8 : Byte).toNat < 10 := by decide

/-- EnccWritesTheSegmentByte: a blank entry of the font, and the largest code below 128. -/
theorem witness_encc : State.reset.busy = false ∧ romAscii 0x20#7 = 0#7 ∧ (0x7F#8 : Byte).toNat < 128 := by decide

/-- OnlyTheEncoderWritesTheResult: an encoder step and a reset that each change `RES`. -/
theorem witness_result_changes :
    (∃ t, step ((presented 20 0x3000A).setRes 0xFF#8) = .next t ∧ t.res ≠ ((presented 20 0x3000A).setRes 0xFF#8).res) ∧
    (∃ t, step { State.reset with res := 0xFF#8, resets := [0] } = .next t ∧ t.res ≠ 0xFF#8) :=
  ⟨⟨_, rfl, by decide⟩, ⟨_, rfl, by decide⟩⟩

/-- DataLineIsStableWhileTheClockIsHigh: both clauses, at the first and the last pulse. -/
theorem witness_data_line :
    (pwSeq .shift8 0x00#8 0xB4#8)[0]? = some (.din, true) ∧ (pwSeq .shift8 0x00#8 0xB4#8)[22]? = some (.clk, true) ∧
    (pwSeq .wrreg 0x0A#8 0x0F#8)[46]? = some (.din, true) ∧ (pwSeq .wrreg 0x0A#8 0x0F#8)[2]? = some (.clk, true) := by decide

theorem witness_frame_bits : (0 : Nat) < 16 ∧ (15 : Nat) < 16 ∧ (0 : Nat) < 8 ∧ (7 : Nat) < 8 := by decide

theorem witness_presented_frames :
    let l : List (Byte × Byte) := [(0x01#8, 0x11#8), (0x01#8, 0x22#8)]
    let s : State := { configured with host := l.map (fun p => .present (encode (.wrreg p.1 p.2))) ++ [.wait] }
    AtRest s ∧ s.resets = [] ∧ s.host = l.map (fun p => .present (encode (.wrreg p.1 p.2))) ++ [.wait] :=
  ⟨⟨rfl, rfl, rfl, rfl, rfl⟩, rfl, rfl⟩

/-- MeaningFollowsTheRegisterMap: a listed value, an unlisted one, and an unlisted address. -/
theorem witness_meaning : AtRest configured ∧ TargetReg.intensity.addr = 0x0A#8 ∧ documented (.wrreg 0x0A#8 0x0F#8) = true ∧
    documented (.wrreg 0x0A#8 0x10#8) = false ∧ documented (.wrreg 0x0D#8 0x00#8) = false :=
  ⟨⟨rfl, rfl, rfl, rfl, rfl⟩, by decide⟩

/-- FrameTakesEffectAllAtOnce: the edges of its first half, and both cases of its second. -/
theorem witness_all_at_once : (AtRest configured ∧ 0 ≤ 50 ∧ 49 ≤ 50 ∧ 50 ≤ 50) ∧
    ((inFrame 49).rx.sel = false ∧ (inFrame 49).rx.cnt = 16 ∧ (inFrame 49).rx.bad = false ∧ (inFrame 49).rx.clk = false) ∧
    ((inFrame 46).rx.sel = false ∧ (inFrame 46).rx.cnt = 15) :=
  ⟨⟨⟨rfl, rfl, rfl, rfl, rfl⟩, by decide⟩, by decide, by decide⟩

/-- The clauses of MeaningFollowsTheRegisterMap, at the edges of the value lists. -/
theorem witness_value_lists : documented (.wrreg 0x09#8 0xFF#8) = true ∧ documented (.wrreg 0x09#8 0xFE#8) = false ∧
    documented (.wrreg 0x0B#8 0x07#8) = true ∧ documented (.wrreg 0x0B#8 0x08#8) = false ∧
    documented (.wrreg 0x0C#8 0x01#8) = true ∧ documented (.wrreg 0x0C#8 0x02#8) = false ∧
    documented (.wrreg 0x0F#8 0x00#8) = true ∧ documented (.wrreg 0x0F#8 0x02#8) = false ∧
    documented (.wrreg 0x08#8 0xFF#8) = true ∧ documented (.wrreg 0x00#8 0x00#8) = false := by decide

/-- ProgressCounterCountsThePinWrites, at both ends of both ranges. -/
theorem witness_progress : State.reset.busy = false ∧ (0 : Nat) ≤ 24 ∧ (24 : Nat) ≤ 24 ∧ (0 : Nat) ≤ 50 ∧ (50 : Nat) ≤ 50 := by decide

/-- The invariant in the middle of a frame, at its last pin write, after it, and in a bare `SHIFT8`. -/
theorem witness_inv_in_frame : Inv (inFrame 20) := by constructor <;> decide
theorem witness_inv_last_write : Inv (inFrame 49) := by constructor <;> decide
theorem witness_inv_after_frame : Inv (inFrame 50) := by constructor <;> decide
theorem witness_inv_in_shift : Inv (inShift 1) := by constructor <;> decide

/-- StepKeepsTheInvariant, NoStepFaultsAndARunningOperationGoesOn, ClockRisesOnlyInsideAFrameOrABareShift. -/
theorem witness_step_in_frame : Inv (inFrame 20) ∧ (inFrame 20).busy = true ∧ (inFrame 20).cs = false ∧ ∃ t, step (inFrame 20) = .next t ∧
    t.clk = true ∧ (inFrame 20).clk = false := ⟨witness_inv_in_frame, by decide, by decide, _, rfl, by decide, by decide⟩

/-- The clock rises in a bare `SHIFT8`. -/
theorem witness_step_in_shift : Inv (inShift 1) ∧ (inShift 1).cs = true ∧ (inShift 1).op = .shift8 ∧ ∃ t, step (inShift 1) = .next t ∧
    t.clk = true ∧ (inShift 1).clk = false := ⟨witness_inv_in_shift, by decide, by decide, _, rfl, by decide, by decide⟩

/-- TargetChangesOnlyAtTheEndOfAFrame, OnlyResetOrABareShiftLosesTheTarget: the step that ends a frame. -/
theorem witness_frame_ends : Inv (inFrame 49) ∧ ∃ t, step (inFrame 49) = .next t ∧ t.reg = (inFrame 49).reg.write 0x0A 0x0F#8 ∧
    (inFrame 49).upc = 49#6 ∧ t.busy = false := ⟨witness_inv_last_write, _, rfl, by decide, by decide, by decide⟩

/-- A second frame, cut by a reset that is due, after a first one that the target took. -/
def secondFrame : State :=
  { applyWrites ((pwWrreg 0x0C#8 0x01#8).take 20) (applyWrites (pwWrreg 0x0A#8 0x0F#8) State.reset) with
    op := .wrreg, ha := 0x0C#8, hb := 0x01#8, upc := 20#6, busy := true, resets := [0] }

/-- The same two obligations: the reset loses what the target held. -/
theorem witness_target_lost : Inv secondFrame ∧ secondFrame.reg = [(0x0A, 0x0F#8)] ∧ secondFrame.cs = false ∧
    resetDue secondFrame.resets = true ∧ ∃ t, step secondFrame = .next t ∧ t.reg = [] :=
  ⟨by constructor <;> decide, by decide, by decide, by decide, _, rfl, by decide⟩

theorem witness_init : Calls .init [] (calling .init) := ⟨⟨rfl, rfl, rfl, rfl, rfl⟩, rfl, rfl⟩
theorem witness_display : Calls (.display 0x01#8 0x02#8 0x03#8 0x04#8 0x05#8 0x06#8 0x07#8 0x08#8) []
    (calling (.display 0x01#8 0x02#8 0x03#8 0x04#8 0x05#8 0x06#8 0x07#8 0x08#8)) := ⟨⟨rfl, rfl, rfl, rfl, rfl⟩, rfl, rfl⟩
theorem witness_text_empty : Calls (.text []) [] (calling (.text [])) := ⟨⟨rfl, rfl, rfl, rfl, rfl⟩, rfl, rfl⟩
theorem witness_text_long : Calls (.text (List.replicate 9 0x31#8)) [] (calling (.text (List.replicate 9 0x31#8))) :=
  ⟨⟨rfl, rfl, rfl, rfl, rfl⟩, rfl, rfl⟩
theorem witness_time : Calls (.time 255 0 255 255) [] (calling (.time 255 0 255 255)) ∧ 255 ≤ 255 ∧ 0 ≤ 255 :=
  ⟨⟨⟨rfl, rfl, rfl, rfl, rfl⟩, rfl, rfl⟩, by decide⟩
theorem witness_date : Calls (.date 255 255 65535) [] (calling (.date 255 255 65535)) ∧ 255 ≤ 255 ∧ 65535 ≤ 65535 :=
  ⟨⟨⟨rfl, rfl, rfl, rfl, rfl⟩, rfl, rfl⟩, by decide⟩
theorem witness_coord_largest : Calls (.coord 0x45#8 9999999) [] (calling (.coord 0x45#8 9999999)) ∧
    (-999999 : Int) ≤ 9999999 ∧ (9999999 : Int) ≤ 9999999 := ⟨⟨⟨rfl, rfl, rfl, rfl, rfl⟩, rfl, rfl⟩, by decide⟩
theorem witness_coord_smallest : Calls (.coord 0x53#8 (-999999)) [] (calling (.coord 0x53#8 (-999999))) ∧
    (-999999 : Int) ≤ -999999 := ⟨⟨⟨rfl, rfl, rfl, rfl, rfl⟩, rfl, rfl⟩, by decide⟩
theorem witness_bright_in_range : Calls (.bright 0) [] (calling (.bright 0)) ∧ Calls (.bright 15) [] (calling (.bright 15)) :=
  ⟨⟨⟨rfl, rfl, rfl, rfl, rfl⟩, rfl, rfl⟩, ⟨⟨rfl, rfl, rfl, rfl, rfl⟩, rfl, rfl⟩⟩
theorem witness_bright_outside : (Calls (.bright (-1)) [] (calling (.bright (-1))) ∧ (-1 : Int) < 0) ∧
    (Calls (.bright 16) [] (calling (.bright 16)) ∧ (15 : Int) < 16) :=
  ⟨⟨⟨⟨rfl, rfl, rfl, rfl, rfl⟩, rfl, rfl⟩, by decide⟩, ⟨⟨⟨rfl, rfl, rfl, rfl, rfl⟩, rfl, rfl⟩, by decide⟩⟩
theorem witness_test : Calls .test [] (calling .test) := ⟨⟨rfl, rfl, rfl, rfl, rfl⟩, rfl, rfl⟩

/-- MacrosAreRefusedExactlyOutsideTheirDomain: one that runs and one that is refused. -/
theorem witness_macro_domain :
    (calling (.time 255 0 0 0)).busy = false ∧ resetDue (calling (.time 255 0 0 0)).resets = false ∧
    (calling (.time 255 0 0 0)).host = .call (.time 255 0 0 0) :: [] ∧ (MacroOp.time 255 0 0 0).wellFormed = true ∧
    (calling (.time 256 0 0 0)).host = .call (.time 256 0 0 0) :: [] ∧ (MacroOp.time 256 0 0 0).wellFormed = false := by decide

/-- DocumentedRangesStayInsideTheDigitFont, at the largest documented operands. -/
theorem witness_documented : (MacroOp.time 99 99 99 99).documented = true ∧ (MacroOp.date 99 99 9999).documented = true ∧
    (9, false) ∈ timeDigits 99 99 99 99 ∧ (9, false) ∈ dateDigits 99 99 9999 := by decide

/-- DecIsThePlainDecimalString: each of its cases, with the strings R131 gives. -/
theorem witness_dec : dec (-5) = [0x2D#8, 0x35#8] ∧ dec 0 = [0x30#8] ∧ dec 52123 = [0x35#8, 0x32#8, 0x31#8, 0x32#8, 0x33#8] := by decide

theorem witness_positions : (1 ≤ 1 ∧ 1 ≤ 8) ∧ (1 ≤ 8 ∧ 8 ≤ 8) := by decide

theorem witness_register_map : TargetReg.ofAddr 0x0F#8 = some .displayTest ∧ TargetReg.ofAddr 0x0D#8 = none ∧
    0x0F#8 ∈ registerTable.map Prod.snd ∧ 0x0D#8 ∉ registerTable.map Prod.snd := by decide

theorem witness_configured : Configured configured ∧ configured.target (.digit 7) = some 0xFE#8 := ⟨⟨rfl, rfl, rfl, rfl, rfl⟩, rfl⟩

/-- A bijection from the pattern's bits to the segments; not the source's, which gives none. -/
def someMap : Fin 7 → Segment
  | 0 => .a
  | 1 => .b
  | 2 => .c
  | 3 => .d
  | 4 => .e
  | 5 => .f
  | 6 => .g

theorem witness_segment_map : Function.Bijective someMap :=
  ⟨by decide, fun x => by cases x <;> decide⟩

/-- Outside the source's own reading: a target in shutdown, and one whose configuration is unknown. -/
theorem test_reading_applies : configured.readingApplies = true ∧ State.reset.readingApplies = false ∧
    State.readingApplies { configured with reg := configured.reg.write 0x0C 0x00#8 } = false ∧
    State.readingApplies { configured with reg := configured.reg.write 0x0F 0x01#8 } = false ∧
    State.readingApplies { configured with reg := configured.reg.write 0x0B 0x06#8 } = false := by decide

end Sys2Proof.Tests
end

section
/-! SUPPORT. The serializer's sequences are concatenations of clock pulses. The counts of R84 add up pulse by pulse, and data before
clock (R83, R167) holds of any list built from pulses and chip-select writes. -/

namespace Sys2Proof.Machine

/-! ### Counts of a list of pulses (R84) -/

/-- How many of the three pin writes of one bit go to a pin. -/
def writesPerPulse : Pin → Nat
  | .din => 1
  | .clk => 2
  | .cs => 0

theorem length_filter_pulse (p : Pin) (v : Level) : ((pulse v).filter fun w => w.1 = p).length = writesPerPulse p := by
  cases p <;> rfl

theorem count_clk_pulse (x v : Level) : (pulse v).count (.clk, x) = 1 := by
  cases x <;> rfl

theorem length_filter_flatMap_pulse {α : Type} (p : Pin) (bit : α → Level) (is : List α) :
    ((is.flatMap fun i => pulse (bit i)).filter fun w => w.1 = p).length = is.length * writesPerPulse p := by
  simp [List.filter_flatMap, List.length_flatMap, length_filter_pulse]

theorem count_clk_flatMap_pulse {α : Type} (x : Level) (bit : α → Level) (is : List α) :
    (is.flatMap fun i => pulse (bit i)).count (.clk, x) = is.length := by
  simp [List.count_flatMap, Function.comp_def, count_clk_pulse]

/-- A `SHIFT8` writes each pin eight times as often as one pulse does. -/
theorem length_filter_pwShift8 (p : Pin) (o : BitOrder) (b : Byte) :
    ((pwShift8 o b).filter fun w => w.1 = p).length = 8 * writesPerPulse p :=
  length_filter_flatMap_pulse p (serialBit o b) _

/-- A `SHIFT8` drives the clock to either level once for each of its eight bits. -/
theorem count_clk_pwShift8 (x : Level) (o : BitOrder) (b : Byte) : (pwShift8 o b).count (.clk, x) = 8 :=
  count_clk_flatMap_pulse x (serialBit o b) _

/-! ### Data before clock (R83, R167) -/

/-- The discipline of R83 and R167 for a list of pin writes begun with the clock low: the data line is written only while the clock is
low, and a rise of the clock stands between a data write and the fall. -/
def DataBeforeClock (ws : List PinWrite) : Prop :=
  ∀ n : Nat,
    ((∃ v, ws[n]? = some (.din, v)) → levelAfter .clk false (ws.take n) = false) ∧
    (ws[n]? = some (.clk, true) → 1 ≤ n ∧ (∃ v, ws[n - 1]? = some (.din, v)) ∧ ws[n + 1]? = some (.clk, false))

theorem levelAfter_append (p : Pin) (v : Level) (us ws : List PinWrite) :
    levelAfter p v (us ++ ws) = levelAfter p (levelAfter p v us) ws := List.foldl_append

theorem dataBeforeClock_nil : DataBeforeClock [] := fun n => by simp

theorem dataBeforeClock_cs (v : Level) : DataBeforeClock [(.cs, v)] := by
  intro n
  match n with
  | 0 => simp
  | n + 1 => simp

/-- The order of R83 inside one bit. -/
theorem dataBeforeClock_pulse (v : Level) : DataBeforeClock (pulse v) := by
  intro n
  match n with
  | 0 => simp [pulse, levelAfter]
  | 1 => simp [pulse]
  | 2 => simp [pulse]
  | n + 3 => simp [pulse]

/-- Lists that keep the discipline may be put one after the other when the first leaves the clock low, as the second needs it. -/
theorem DataBeforeClock.append {us ws : List PinWrite} (hus : DataBeforeClock us) (hlow : levelAfter .clk false us = false)
    (hws : DataBeforeClock ws) : DataBeforeClock (us ++ ws) := by
  intro n
  by_cases hn : n < us.length
  · obtain ⟨hdata, hrise⟩ := hus n
    rw [List.getElem?_append_left hn, List.take_append_of_le_length hn.le]
    refine ⟨hdata, fun hw => ?_⟩
    obtain ⟨hpos, hbefore, hafter⟩ := hrise hw
    have hn' : n + 1 < us.length := (List.getElem?_eq_some_iff.mp hafter).1
    rw [List.getElem?_append_left (by omega), List.getElem?_append_left hn']
    exact ⟨hpos, hbefore, hafter⟩
  · obtain ⟨m, rfl⟩ := Nat.exists_eq_add_of_le (not_lt.mp hn)
    obtain ⟨hdata, hrise⟩ := hws m
    have hlevel : levelAfter .clk false ((us ++ ws).take (us.length + m)) = levelAfter .clk false (ws.take m) := by
      rw [List.take_length_add_append, levelAfter_append, hlow]
    have hget (i : Nat) : (us ++ ws)[us.length + i]? = ws[i]? := by
      rw [List.getElem?_append_right (Nat.le_add_right ..), Nat.add_sub_cancel_left]
    rw [hlevel, hget]
    refine ⟨hdata, fun hw => ?_⟩
    obtain ⟨hpos, hbefore, hafter⟩ := hrise hw
    rw [Nat.add_sub_assoc hpos, hget, Nat.add_assoc, hget]
    exact ⟨by omega, hbefore, hafter⟩

theorem DataBeforeClock.flatMap_pulse_append {α : Type} {ws : List PinWrite} (h : DataBeforeClock ws) (bit : α → Level) (is : List α) :
    DataBeforeClock ((is.flatMap fun i => pulse (bit i)) ++ ws) := by
  induction is with
  | nil => exact h
  | cons i is ih =>
    rw [List.flatMap_cons, List.append_assoc]
    exact (dataBeforeClock_pulse (bit i)).append rfl ih

theorem DataBeforeClock.pwShift8_append {ws : List PinWrite} (h : DataBeforeClock ws) (o : BitOrder) (b : Byte) :
    DataBeforeClock (pwShift8 o b ++ ws) :=
  h.flatMap_pulse_append (serialBit o b) _

theorem dataBeforeClock_pwShift8 (o : BitOrder) (b : Byte) : DataBeforeClock (pwShift8 o b) := by
  simpa using dataBeforeClock_nil.pwShift8_append o b

theorem dataBeforeClock_pwWrreg (a d : Byte) : DataBeforeClock (pwWrreg a d) := by
  have hbytes := ((dataBeforeClock_cs true).pwShift8_append .msb d).pwShift8_append .msb a
  simpa [pwWrreg] using (dataBeforeClock_cs false).append rfl hbytes

theorem dataBeforeClock_pwSeq (k : OpKind) (ha hb : Byte) : DataBeforeClock (pwSeq k ha hb) := by
  cases k with
  | shift8 => exact dataBeforeClock_pwShift8 (orderOfHolding ha) hb
  | wrreg => exact dataBeforeClock_pwWrreg ha hb

end Sys2Proof.Machine

namespace Sys2Proof.Claims

open Sys2Proof.Machine

/-- Settles O22: a sequence is made of pulses and chip-select writes, and each keeps the discipline of the rest. -/
theorem dataLineIsStableWhileTheClockIsHigh : Obligations.DataLineIsStableWhileTheClockIsHigh :=
  dataBeforeClock_pwSeq

/-- Settles O20: eight pulses, each of one write of `DIN` and a rise and a fall of `CLK`. -/
theorem serializerMakesTwentyFourPinWrites : Obligations.SerializerMakesTwentyFourPinWrites :=
  fun o b =>
    ⟨length_pwShift8 o b, length_filter_pwShift8 .din o b, length_filter_pwShift8 .clk o b,
      count_clk_pwShift8 true o b, count_clk_pwShift8 false o b, length_filter_pwShift8 .cs o b⟩

end Sys2Proof.Claims
end

section
/-! SUPPORT. The byte `ENCC` leaves in `RES` (R65, R119): the decimal point and the font's entry are independent. Setting the operand's
top bit sets the byte's, and for a code below 128 the byte is the font's entry alone. -/

namespace Sys2Proof.Machine

/-- `ENCC x` with the port ready writes `RES` and nothing else (R18, R119). -/
theorem exec_encc_ready {x b : Byte} {s : State} (hbusy : s.busy = false) (hb : charPattern x = b) :
    exec (.encc x) s = .next (s.setRes b) :=
  hb ▸ issueEncode_ready (charPattern x) s hbusy

/-- Entry 0x20 is the one the spec states (R117). -/
@[simp] theorem romAscii_space : romAscii 0x20#7 = 0#7 := rfl

/-- Without the point, the byte is the font's entry. -/
theorem charPattern_setWidth (c : BitVec 7) : charPattern (c.setWidth 8) = (romAscii c).setWidth 8 := by
  have hpoint : c.setWidth 8 &&& 0x80#8 = 0#8 := by
    ext i hi
    interval_cases i <;> simp
  have hcode : (c.setWidth 8 &&& 0x7F#8).setWidth 7 = c := by
    ext i hi
    interval_cases i <;> simp
  rw [charPattern, hpoint, hcode, BitVec.zero_or]

/-- The operand's point is the byte's point, and the font does not see it. -/
theorem charPattern_or_point (x : Byte) : charPattern (x ||| 0x80#8) = charPattern x ||| 0x80#8 := by
  have hpoint : (x ||| 0x80#8) &&& 0x80#8 = (x &&& 0x80#8) ||| 0x80#8 := BitVec.and_or_distrib_right
  have hcode : (x ||| 0x80#8) &&& 0x7F#8 = x &&& 0x7F#8 := by simp [BitVec.and_or_distrib_right]
  rw [charPattern, hpoint, hcode, charPattern, BitVec.or_assoc, BitVec.or_assoc, BitVec.or_comm 0x80#8]

/-- With the point, the byte is the font's entry with bit 7 set. -/
theorem charPattern_point_or_setWidth (c : BitVec 7) :
    charPattern (0x80#8 ||| c.setWidth 8) = 0x80#8 ||| (romAscii c).setWidth 8 := by
  rw [BitVec.or_comm, charPattern_or_point, charPattern_setWidth, BitVec.or_comm]

/-- A font entry has 7 bits, so bit 7 of the byte is the operand's. -/
theorem charPattern_bit7 (x : Byte) : (charPattern x).getLsbD 7 = x.getLsbD 7 := by simp [charPattern]

/-- Below 128 the bits of `x` and of 128 do not meet, so adding 128 sets the top bit. -/
theorem add_128_eq_or_point {x : Byte} (hx : x.toNat < 128) : x + 128#8 = x ||| 0x80#8 := by
  have htop : x.getLsbD 7 = false := Nat.testBit_lt_two_pow hx
  have hdisjoint : x &&& BitVec.twoPow 8 7 = 0#8 := by rw [BitVec.and_twoPow, htop]; rfl
  exact BitVec.add_eq_or_of_and_eq_zero x 0x80#8 hdisjoint

end Sys2Proof.Machine

namespace Sys2Proof.Claims

open Sys2Proof.Machine

/-- Settles O16: `exec` answers `charPattern`, and each clause is one of its laws at the operand in question. -/
theorem enccWritesTheSegmentByte : Obligations.EnccWritesTheSegmentByte := by
  unfold Obligations.EnccWritesTheSegmentByte
  have hspace : charPattern 0x20#8 = 0x00#8 := charPattern_setWidth 0x20#7
  have hblank (c : BitVec 7) (hc : romAscii c = 0#7) : charPattern (0x80#8 ||| c.setWidth 8) = 0x80#8 := by
    rw [charPattern_point_or_setWidth, hc]; rfl
  refine ⟨fun x => rfl, fun x s h => exec_encc_ready h rfl, fun s h => ⟨?space, ?spacePoint, ?blankPoint⟩, ?addPoint,
    by decide, by decide, fun s h => ⟨?one, ?onePoint⟩⟩
  case space => exact exec_encc_ready h hspace
  case spacePoint => exact exec_encc_ready h (hblank 0x20#7 romAscii_space)
  case blankPoint => exact fun c hc => exec_encc_ready h (hblank c hc)
  case addPoint =>
    intro x s h hx
    refine ⟨_, _, exec_encc_ready h rfl, exec_encc_ready h rfl, ?_, ?_⟩
    · rw [State.setRes_res, State.setRes_res, add_128_eq_or_point hx, charPattern_or_point]
    · rw [State.setRes_res, charPattern_bit7]
      exact Nat.testBit_lt_two_pow hx
  case one => exact exec_encc_ready h (charPattern_setWidth 0x31#7)
  case onePoint => exact exec_encc_ready h (charPattern_point_or_setWidth 0x31#7)

end Sys2Proof.Claims
end

section
/-! SUPPORT. Words (R60 to R63, R69, R71). A command word is its three fields put together, so the decoder and the encoder are compared field
by field; a frame word is decoded by its address byte alone. -/

namespace Sys2Proof

/-! ### Bit orders and the fields of a word -/

@[simp] theorem orderOfBit_bitOfOrder (o : BitOrder) : orderOfBit (bitOfOrder o) = o := by cases o <;> rfl

@[simp] theorem bitOfOrder_orderOfBit (v : Bool) : bitOfOrder (orderOfBit v) = v := by cases v <;> rfl

/-- A command word is made of its `op`, `a` and `b` (R62). -/
theorem command_fields (w : BitVec 20) : w.extractLsb' 16 4 ++ w.extractLsb' 8 8 ++ w.extractLsb' 0 8 = w := by
  rw [BitVec.extractLsb'_append_extractLsb'_eq_extractLsb' (by rfl), BitVec.extractLsb'_append_extractLsb'_eq_extractLsb' (by rfl)]
  exact BitVec.extractLsb'_eq_self

/-- A byte with bits 7:1 clear is its bit 0 zero-extended. -/
theorem setWidth_bit0_of_high_bits_zero {a : Byte} (h : a.extractLsb' 1 7 = 0#7) :
    BitVec.setWidth 8 (BitVec.ofBool (a.getLsbD 0)) = a := by
  have hbit (i : Nat) (hi : i < 7) : a.getLsbD (i + 1) = false := by
    simpa [BitVec.getLsbD_extractLsb', hi, Nat.add_comm] using congrArg (fun x => x.getLsbD i) h
  ext i hi
  cases i with
  | zero => simp
  | succ i => simpa [BitVec.getLsbD_eq_getElem hi] using (hbit i (by omega)).symm

/-- Bits 7:1 of a byte are clear exactly when the mask 0xFE finds none. -/
theorem and_0xFE_eq_zero_iff (a : Byte) : a &&& 0xFE#8 = 0#8 ↔ a.extractLsb' 1 7 = 0#7 := by
  revert a; decide

/-! ### The decoder, case by case -/

/-- Everything a command word that decodes can be (R63). -/
theorem decodeCommand_op {w : BitVec 20} {i : Instr} (h : decodeCommand w = .op i) :
    (w.extractLsb' 16 4 = 0x1#4 ∧ (w.extractLsb' 8 8).extractLsb' 1 7 = 0#7 ∧
      i = .shift8 (orderOfBit ((w.extractLsb' 8 8).getLsbD 0)) (w.extractLsb' 0 8)) ∨
    (w.extractLsb' 16 4 = 0x2#4 ∧ i = .wrreg (w.extractLsb' 8 8) (w.extractLsb' 0 8)) ∨
    (w.extractLsb' 16 4 = 0x3#4 ∧ w.extractLsb' 8 8 = 0x00#8 ∧ i = .encd (w.extractLsb' 0 8)) ∨
    (w.extractLsb' 16 4 = 0x4#4 ∧ w.extractLsb' 8 8 = 0x00#8 ∧ i = .encc (w.extractLsb' 0 8)) := by
  simp only [decodeCommand] at h
  split_ifs at h with h1 ha h2 h3 ha h4 ha <;> cases h
  · exact .inl ⟨h1, ha, rfl⟩
  · exact .inr (.inl ⟨h2, rfl⟩)
  · exact .inr (.inr (.inl ⟨h3, ha, rfl⟩))
  · exact .inr (.inr (.inr ⟨h4, ha, rfl⟩))

/-- Which command words do not decode, by their fields (R69). -/
theorem decodeCommand_rejected_iff (w : BitVec 20) :
    (∃ r, decodeCommand w = .rejected r) ↔
      ((w.extractLsb' 16 4).toNat = 0 ∨ 5 ≤ (w.extractLsb' 16 4).toNat ∨
        ((w.extractLsb' 16 4).toNat = 1 ∧ w.extractLsb' 8 8 &&& 0xFE#8 ≠ 0#8) ∨
        (((w.extractLsb' 16 4).toNat = 3 ∨ (w.extractLsb' 16 4).toNat = 4) ∧ w.extractLsb' 8 8 ≠ 0#8)) := by
  have hop (o : BitVec 4) (h1 : o ≠ 1#4) (h2 : o ≠ 2#4) (h3 : o ≠ 3#4) (h4 : o ≠ 4#4) :
      o.toNat = 0 ∨ 5 ≤ o.toNat := by revert o; decide
  simp only [decodeCommand, ne_eq, and_0xFE_eq_zero_iff]
  split_ifs with h1 ha h2 h3 ha h4 ha
  · simp [h1, ha]
  · simp [h1, ha]
  · simp [h2]
  · simp [h3, ha]
  · simp [h3, ha]
  · simp [h4, ha]
  · simp [h4, ha]
  · exact iff_of_true ⟨_, rfl⟩ ((hop _ h1 h2 h3 h4).imp_right .inl)

/-- The decoder reads the frame of a mnemonic back from its address (R61). -/
theorem decodeFrame_namedFrames (d : Byte) :
    ∀ p ∈ Claims.namedFrames, decodeFrame (p.2 ++ d) = p.1 d := by
  simp [Claims.namedFrames, decodeFrame, extract_address, extract_data]

/-- A frame word to an address without a mnemonic is the `WRREG` that sends it (R68, R108). -/
theorem decodeFrame_unlisted (a d : Byte) (h : a ∉ Claims.namedFrames.map Prod.snd) : decodeFrame (a ++ d) = .wrreg a d := by
  simp only [Claims.namedFrames, List.map_cons, List.map_nil, List.mem_cons, List.not_mem_nil, or_false, not_or] at h
  simp [decodeFrame, extract_address, extract_data, h]

theorem decode_commandWord (op : BitVec 4) (a b : Byte) : decode (commandWord op a b) = decodeCommand (op ++ a ++ b) := rfl

@[simp] theorem decode_encode_wrreg (a d : Byte) : decode (encode (.wrreg a d)) = .op (.wrreg a d) := by
  simp only [encode, decode_commandWord, decodeCommand, extract_op, extract_a, extract_b]
  rfl

@[simp] theorem decode_encode_encd (d : Byte) : decode (encode (.encd d)) = .op (.encd d) := by
  simp only [encode, decode_commandWord, decodeCommand, extract_op, extract_a, extract_b]
  rfl

@[simp] theorem decode_encode_encc (x : Byte) : decode (encode (.encc x)) = .op (.encc x) := by
  simp only [encode, decode_commandWord, decodeCommand, extract_op, extract_a, extract_b]
  rfl

@[simp] theorem decode_encode_shift8 (o : BitOrder) (b : Byte) : decode (encode (.shift8 o b)) = .op (.shift8 o b) := by
  have hzero : (BitVec.setWidth 8 (BitVec.ofBool (bitOfOrder o))).extractLsb' 1 7 = 0#7 := by cases o <;> rfl
  have hbit : (BitVec.setWidth 8 (BitVec.ofBool (bitOfOrder o))).getLsbD 0 = bitOfOrder o := by simp
  rw [encode, decode_commandWord, decodeCommand]
  simp only [extract_op, extract_a, extract_b, hzero, hbit, orderOfBit_bitOfOrder, if_true]

/-- A word with none of the table's lengths has no format (R71). -/
theorem portWordOfBits_otherLength {nbits bits : Nat} (h16 : nbits ≠ 16) (h20 : nbits ≠ 20) (h24 : nbits ≠ 24) :
    portWordOfBits nbits bits = .otherLength nbits bits := by
  simp [portWordOfBits, h16, h20, h24]

end Sys2Proof

namespace Sys2Proof.Machine

/-- An idle machine whose host presents a word runs `presentWord` on it (R18, R179). -/
theorem step_present {s : State} {w : PortWord} {rest : List HostAct} (hb : s.busy = false) (hr : resetDue s.resets = false)
    (hh : s.host = .present w :: rest) :
    step s = presentWord w ((s.withResets (tickResets s.resets)).withHost rest) := by
  rw [step_idle s hr hb, hostMove]
  simp [hh]

theorem presentWord_of_op {w : PortWord} {i : Instr} (s : State) (h : decode w = .op i) : presentWord w s = exec i s := by
  simp [presentWord, h]

theorem presentWord_of_rejected {w : PortWord} {r : Reject} (s : State) (h : decode w = .rejected r) :
    presentWord w s = .refused (.reservedWord r) := by
  simp [presentWord, h]

end Sys2Proof.Machine

namespace Sys2Proof.Claims

open Sys2Proof.Machine

/-- Settles O6: the fields of each command word come apart as they were put together, and a frame is read by its address. -/
theorem decodeOfEncodeIsTheInstruction : Obligations.DecodeOfEncodeIsTheInstruction := by
  intro i _
  cases i with
  | shift8 o b => exact decode_encode_shift8 o b
  | wrreg a d => exact decode_encode_wrreg a d
  | encd d => exact decode_encode_encd d
  | encc x => exact decode_encode_encc x
  | wrDig0 d | wrDig1 d | wrDig2 d | wrDig3 d | wrDig4 d | wrDig5 d | wrDig6 d | wrDig7 d | wrDecode d | wrIntens d
  | wrScan d | wrShdn d | wrDtest d => simp [encode, frameWord, decode, decodeFrame, extract_address, extract_data]

/-- Settles O7: the decoder fixes each field of the word it reads, and the encoder puts the same fields together. -/
theorem encodeOfDecodeIsTheCommandWord : Obligations.EncodeOfDecodeIsTheCommandWord := by
  intro w i h
  rcases decodeCommand_op h with ⟨hop, ha, rfl⟩ | ⟨hop, rfl⟩ | ⟨hop, ha, rfl⟩ | ⟨hop, ha, rfl⟩
  · rw [encode, bitOfOrder_orderOfBit, setWidth_bit0_of_high_bits_zero ha, ← hop, commandWord, command_fields]
  · rw [encode, ← hop, commandWord, command_fields]
  · rw [encode, ← hop, ← ha, commandWord, command_fields]
  · rw [encode, ← hop, ← ha, commandWord, command_fields]

/-- Settles O8: the decoder's own case split, read with the fields as numbers. -/
theorem exactlyTheReservedWordsAreRefused : Obligations.ExactlyTheReservedWordsAreRefused := by
  refine ⟨fun w => ?_, fun _ _ => rfl, fun nbits bits h16 h20 h24 => ?_, fun w s rest r hb hr hh hw => ?_⟩
  · have hop : (w >>> 16).toNat = (w.extractLsb' 16 4).toNat := by
      simp only [BitVec.toNat_ushiftRight, BitVec.extractLsb'_toNat, Nat.shiftRight_eq_div_pow]
      omega
    have ha : (w >>> 8).setWidth 8 = w.extractLsb' 8 8 := rfl
    simp only [hop, ha]
    exact decodeCommand_rejected_iff w
  · rw [decodeTableWord, portWordOfBits_otherLength h16 h20 h24]
    exact ⟨rfl, rfl⟩
  · rw [step_present hb hr hh, presentWord_of_rejected _ hw]

/-- Settles O9: the decoder's address cases, listed and unlisted. -/
theorem frameWordsDecodeByTheirAddress : Obligations.FrameWordsDecodeByTheirAddress :=
  ⟨fun p hp d => congrArg Decoded.op (decodeFrame_namedFrames d p hp),
    fun a d ha => congrArg Decoded.op (decodeFrame_unlisted a d ha)⟩

/-- Settles O5: the decoder run on the six words. -/
theorem writtenOutWordsDecode : Obligations.WrittenOutWordsDecode := by
  unfold Obligations.WrittenOutWordsDecode
  decide

/-- Settles O10: `hostMove` takes the word off the list, and `presentWord` runs what it decodes to. -/
theorem stepRunsTheDecodedInstruction : Obligations.StepRunsTheDecodedInstruction := by
  intro s w rest i hb hr hh hw
  rw [step_present hb hr hh, presentWord_of_op _ hw]
  rfl

end Sys2Proof.Claims
end

section
/-! SUPPORT. The sequences in closed form (R82, R91). A `SHIFT8` is eight pulses and a `WRREG` sixteen between two chip-select writes, and
element `k` of a run of pulses is known from `k / 3` and `k % 3`. -/

namespace Sys2Proof.Machine

open Sys2Proof.Claims

/-! ### Runs of pulses -/

/-- Element `k` of the pulses of the bits `bit 0`, `bit 1` and so on. -/
def pulseWrite (bit : Nat → Level) (k : Nat) : PinWrite :=
  if k % 3 = 0 then (.din, bit (k / 3)) else if k % 3 = 1 then (.clk, true) else (.clk, false)

@[simp] theorem pulseWrite_data (bit : Nat → Level) (j : Nat) : pulseWrite bit (3 * j) = (.din, bit j) := by
  simp [pulseWrite]

@[simp] theorem pulseWrite_high (bit : Nat → Level) (j : Nat) : pulseWrite bit (3 * j + 1) = (.clk, true) := by
  simp [pulseWrite, Nat.add_mod]

@[simp] theorem pulseWrite_low (bit : Nat → Level) (j : Nat) : pulseWrite bit (3 * j + 2) = (.clk, false) := by
  simp [pulseWrite, Nat.add_mod]

/-- `n` pulses are `3 * n` pin writes, each in its closed form. -/
theorem flatMap_pulse_eq_map (bit : Nat → Level) (n : Nat) :
    ((List.range n).flatMap fun j => pulse (bit j)) = (List.range (3 * n)).map (pulseWrite bit) := by
  induction n with
  | zero => rfl
  | succ n ih =>
    rw [List.range_succ, List.flatMap_append, ih, show 3 * (n + 1) = 3 * n + 1 + 1 + 1 by omega]
    simp [List.range_succ, pulse]

/-- The levels on the data line, pulse by pulse. -/
theorem dataLevels_flatMap_pulse {α : Type} (bit : α → Level) (is : List α) :
    (((is.flatMap fun i => pulse (bit i)).filter fun w => w.1 = .din).map Prod.snd) = is.map bit := by
  induction is with
  | nil => rfl
  | cons i is ih => simpa [List.flatMap_cons, pulse] using ih

/-! ### The two sequences as runs of pulses -/

/-- Bit `j` in time order of the frame `a`, `d` (R41, R60). -/
def frameBit (a d : Byte) (j : Nat) : Level := (a ++ d : BitVec 16).getLsbD (15 - j)

theorem frameBit_address (a d : Byte) {j : Nat} (h : j < 8) : frameBit a d j = a.getLsbD (7 - j) := by
  rw [frameBit, BitVec.getLsbD_append, if_neg (by omega), show 15 - j - 8 = 7 - j by omega]

theorem frameBit_data (a d : Byte) {j : Nat} (h : j < 8) : frameBit a d (8 + j) = d.getLsbD (7 - j) := by
  rw [frameBit, BitVec.getLsbD_append, if_pos (by omega), show 15 - (8 + j) = 7 - j by omega]

theorem pwShift8_eq_pulses (o : BitOrder) (b : Byte) :
    pwShift8 o b = (List.range 8).flatMap fun i => pulse (serialBit o b i) := rfl

/-- The sixteen pulses of a frame, without the bracket. -/
def framePulses (a d : Byte) : List PinWrite := (List.range 16).flatMap fun j => pulse (frameBit a d j)

/-- The two bytes of a frame are the sixteen pulses of its word. -/
theorem pwShift8_append_eq_pulses (a d : Byte) : pwShift8 .msb a ++ pwShift8 .msb d = framePulses a d := by
  have haddress : pwShift8 .msb a = (List.range 8).flatMap fun j => pulse (frameBit a d j) :=
    List.flatMap_congr fun j hj => by rw [frameBit_address a d (List.mem_range.mp hj)]; rfl
  have hdata : pwShift8 .msb d = (List.range 8).flatMap fun j => pulse (frameBit a d (8 + j)) :=
    List.flatMap_congr fun j hj => by rw [frameBit_data a d (List.mem_range.mp hj)]; rfl
  rw [framePulses, show 16 = 8 + 8 from rfl, List.range_add, List.flatMap_append, List.flatMap_map, haddress, hdata]

/-- A frame is its pulses inside the chip-select bracket (R90). -/
theorem pwWrreg_eq_pulses (a d : Byte) : pwWrreg a d = [(.cs, false)] ++ framePulses a d ++ [(.cs, true)] := by
  rw [pwWrreg, List.append_assoc [_], pwShift8_append_eq_pulses]

/-! ### The closed forms of the claims -/

theorem shiftWrite_eq_pulseWrite (o : BitOrder) (b : Byte) : shiftWrite o b = pulseWrite (serialBit o b) := by
  cases o <;> rfl

theorem frameWrite_succ (a d : Byte) {k : Nat} (h : k < 48) : frameWrite a d (1 + k) = pulseWrite (frameBit a d) k := by
  rw [frameWrite, if_neg (by omega), if_neg (by omega), Nat.add_sub_cancel_left]
  rfl

theorem pwShift8_eq_map (o : BitOrder) (b : Byte) : pwShift8 o b = (List.range 24).map (shiftWrite o b) := by
  rw [pwShift8_eq_pulses, flatMap_pulse_eq_map, shiftWrite_eq_pulseWrite]

theorem pwWrreg_eq_map (a d : Byte) : pwWrreg a d = (List.range 50).map (frameWrite a d) := by
  have hpulses : framePulses a d = (List.range 48).map fun k => frameWrite a d (1 + k) := by
    rw [framePulses, flatMap_pulse_eq_map]
    exact (List.map_congr_left fun k hk => frameWrite_succ a d (List.mem_range.mp hk)).symm
  rw [pwWrreg_eq_pulses, hpulses, show 50 = 1 + 48 + 1 from rfl, List.range_add, List.range_add]
  simp [frameWrite]

theorem getElem?_pwShift8 (o : BitOrder) (b : Byte) {k : Nat} (h : k < 24) : (pwShift8 o b)[k]? = some (shiftWrite o b k) := by
  rw [pwShift8_eq_map, List.getElem?_map, List.getElem?_range h]; rfl

theorem getElem?_pwWrreg (a d : Byte) {k : Nat} (h : k < 50) : (pwWrreg a d)[k]? = some (frameWrite a d k) := by
  rw [pwWrreg_eq_map, List.getElem?_map, List.getElem?_range h]; rfl

/-- Elements 1 to 48 of a frame are its pulses. -/
theorem getElem?_pwWrreg_pulse (a d : Byte) {k : Nat} (h : k < 48) :
    (pwWrreg a d)[1 + k]? = some (pulseWrite (frameBit a d) k) := by
  rw [getElem?_pwWrreg a d (by omega), frameWrite_succ a d h]

/-- What a whole `SHIFT8` appends to `TRACE` is its sequence. -/
theorem map_eventOf_pwShift8 (o : BitOrder) (b : Byte) : (pwShift8 o b).map eventOf = shiftEvents o b := by
  rw [pwShift8_eq_map, List.map_map]; rfl

/-- What a whole `WRREG` appends to `TRACE` is its sequence. -/
theorem map_eventOf_pwWrreg (a d : Byte) : (pwWrreg a d).map eventOf = frameEvents a d := by
  rw [pwWrreg_eq_map, List.map_map]; rfl

/-- The order of a running `SHIFT8` as bit 0 of `HA` gives it. -/
theorem orderOfHolding_eq (ha : Byte) : orderOfHolding ha = if ha.getLsbD 0 then .lsb else .msb := by
  unfold orderOfHolding
  cases ha.getLsbD 0 <;> rfl

@[simp] theorem orderOfHolding_holdingOfOrder (o : BitOrder) : orderOfHolding (holdingOfOrder o) = o := by
  cases o <;> rfl

/-- The pin write at `UPC` is the one of the closed form (R19). -/
theorem getElem?_pwSeq_upc {s : State} (h : s.upc.toNat < (pwSeq s.op s.ha s.hb).length) :
    (pwSeq s.op s.ha s.hb)[s.upc.toNat]? = some (currentWrite s) := by
  rw [length_pwSeq] at h
  cases hop : s.op with
  | shift8 =>
    rw [hop] at h
    simp only [currentWrite, hop, ← orderOfHolding_eq]
    exact getElem?_pwShift8 _ _ h
  | wrreg =>
    rw [hop] at h
    simp only [currentWrite, hop]
    exact getElem?_pwWrreg _ _ h

end Sys2Proof.Machine

namespace Sys2Proof.Claims

open Sys2Proof.Machine

/-- Settles O19: both sequences are runs of pulses. -/
theorem sequencesHaveTheClosedForms : Obligations.SequencesHaveTheClosedForms :=
  ⟨pwShift8_eq_map, pwWrreg_eq_map⟩

/-- Settles O21: the data levels of a run of pulses are its bits, and pulse `j` is elements `3 * j` to `3 * j + 2` of it. -/
theorem frameBitsGoOutMostSignificantFirst : Obligations.FrameBitsGoOutMostSignificantFirst := by
  refine ⟨fun a d j hj => ⟨?levels, ?data, ?high, ?low⟩, fun b i hi => ?lsb⟩
  case levels =>
    have hlevels : ((pwWrreg a d).filter fun w => w.1 = .din).map Prod.snd = (List.range 16).map (frameBit a d) := by
      rw [pwWrreg_eq_pulses]
      simpa [framePulses] using dataLevels_flatMap_pulse (frameBit a d) (List.range 16)
    rw [hlevels, List.getElem?_map, List.getElem?_range hj]
    rfl
  case data => rw [getElem?_pwWrreg_pulse a d (by omega), pulseWrite_data]; rfl
  case high => rw [show 2 + 3 * j = 1 + (3 * j + 1) by omega, getElem?_pwWrreg_pulse a d (by omega), pulseWrite_high]
  case low => rw [show 3 + 3 * j = 1 + (3 * j + 2) by omega, getElem?_pwWrreg_pulse a d (by omega), pulseWrite_low]
  case lsb =>
    rw [pwShift8_eq_pulses, dataLevels_flatMap_pulse, List.getElem?_map, List.getElem?_range hi]
    rfl

end Sys2Proof.Claims
end

section
/-! SUPPORT. What an instruction and a step do to each part of the state: every instruction is accepted in one of two ways (R18), the host's
moves touch no pin, and what the target holds is read by nothing (R43). -/

namespace Sys2Proof.Machine

/-! ### The two ways an instruction is accepted -/

/-- An instruction starts the sequencer or writes `RES`, with values that depend on the instruction alone (R18). -/
theorem exec_eq_issue (i : Instr) :
    (∃ o b, i = .shift8 o b ∧ exec i = issuePinOp .shift8 (holdingOfOrder o) b) ∨
    (∃ a d, exec i = issuePinOp .wrreg a d) ∨
    (∃ b, ((∃ d, i = .encd d) ∨ ∃ x, i = .encc x) ∧ exec i = issueEncode b) := by
  cases i with
  | shift8 o b => exact .inl ⟨o, b, rfl, rfl⟩
  | encd d => exact .inr (.inr ⟨_, .inl ⟨d, rfl⟩, rfl⟩)
  | encc x => exact .inr (.inr ⟨_, .inr ⟨x, rfl⟩, rfl⟩)
  | wrreg a d => exact .inr (.inl ⟨a, d, rfl⟩)
  | wrDig0 d | wrDig1 d | wrDig2 d | wrDig3 d | wrDig4 d | wrDig5 d | wrDig6 d | wrDig7 d | wrDecode d | wrIntens d
  | wrScan d | wrShdn d | wrDtest d => exact .inr (.inl ⟨_, d, rfl⟩)

theorem exec_shift8_ready (o : BitOrder) (b : Byte) {s : State} (h : s.busy = false) :
    exec (.shift8 o b) s = .next (s.load .shift8 (holdingOfOrder o) b) :=
  issuePinOp_ready _ _ _ s h

theorem exec_wrreg_ready (a d : Byte) {s : State} (h : s.busy = false) : exec (.wrreg a d) s = .next (s.load .wrreg a d) :=
  issuePinOp_ready _ _ _ s h

/-- Each named frame is accepted as the `WRREG` at its address (R95 to R107). -/
theorem exec_namedFrames (d : Byte) : ∀ p ∈ Claims.namedFrames, exec (p.1 d) = exec (.wrreg p.2 d) := by
  intro p hp
  simp only [Claims.namedFrames, List.mem_cons, List.not_mem_nil, or_false] at hp
  rcases hp with rfl | rfl | rfl | rfl | rfl | rfl | rfl | rfl | rfl | rfl | rfl | rfl | rfl <;> rfl

theorem exec_busy (i : Instr) {s : State} (h : s.busy = true) : exec i s = .refused .portNotReady := by
  rcases exec_eq_issue i with ⟨o, b, -, he⟩ | ⟨a, d, he⟩ | ⟨b, -, he⟩ <;> rw [he]
  · exact issuePinOp_busy _ _ _ s h
  · exact issuePinOp_busy _ _ _ s h
  · exact issueEncode_busy _ s h

/-- Only an encoder operation writes `RES` (R15). -/
theorem exec_res_ne {i : Instr} {s t : State} (h : exec i s = .next t) (hres : t.res ≠ s.res) :
    (∃ d, i = .encd d) ∨ ∃ x, i = .encc x := by
  rcases exec_eq_issue i with ⟨o, b, -, he⟩ | ⟨a, d, he⟩ | ⟨b, hi, -⟩
  · rw [he] at h
    obtain ⟨-, rfl⟩ := issuePinOp_next _ _ _ _ _ h
    exact absurd rfl hres
  · rw [he] at h
    obtain ⟨-, rfl⟩ := issuePinOp_next _ _ _ _ _ h
    exact absurd rfl hres
  · exact hi

/-! ### The host's moves -/

theorem presentWord_encode_wrreg (a d : Byte) (s : State) : presentWord (encode (.wrreg a d)) s = exec (.wrreg a d) s :=
  presentWord_of_op s (decode_encode_wrreg a d)

/-- `RES` changes in a move of the host only when it presents a word of the encoder (R15). -/
theorem hostMove_res_ne {s t : State} (h : hostMove s = .next t) (hres : t.res ≠ s.res) :
    ∃ w rest, s.host = .present w :: rest ∧ ((∃ d, decode w = .op (.encd d)) ∨ ∃ x, decode w = .op (.encc x)) := by
  unfold hostMove at h
  split at h
  case h_1 => cases h; exact absurd rfl hres
  case h_2 w rest hh =>
    refine ⟨w, rest, hh, ?_⟩
    cases hw : decode w with
    | op i =>
      rw [presentWord_of_op _ hw] at h
      rcases exec_res_ne h hres with ⟨d, rfl⟩ | ⟨x, rfl⟩
      · exact .inl ⟨d, rfl⟩
      · exact .inr ⟨x, rfl⟩
    | rejected r => rw [presentWord_of_rejected _ hw] at h; cases h
  case h_3 a d rest hh =>
    obtain ⟨x, y, -, -, hw⟩ := presentWrreg_next _ _ _ _ h
    rw [presentWord_encode_wrreg] at hw
    rcases exec_res_ne hw hres with ⟨_, hi⟩ | ⟨_, hi⟩ <;> cases hi
  case h_4 => cases h; exact absurd rfl hres
  case h_5 =>
    split at h
    · cases h; exact absurd rfl hres
    · cases h
  case h_6 => cases h; exact absurd rfl hres

/-- A move of the host writes no pin: the pins, `TRACE` and the target stand (R18, R180). -/
theorem hostMove_wire {s t : State} (h : hostMove s = .next t) :
    t.din = s.din ∧ t.clk = s.clk ∧ t.cs = s.cs ∧ t.trace = s.trace ∧ t.reg = s.reg ∧ t.rx = s.rx := by
  rcases hostMove_next s t h with rfl | ⟨i, rest, hi⟩ | ⟨rest, v, b, rfl⟩ | ⟨rest, rfl⟩
  · simp
  · obtain ⟨-, ⟨o, b, -, rfl⟩ | ⟨a, d, rfl⟩ | ⟨b, rfl⟩⟩ := exec_next i _ t hi <;> simp
  · simp
  · simp

/-- No move of the host faults (R140). -/
theorem hostMove_not_fault (s : State) (f : Fault) : hostMove s ≠ .fault f := by
  have hword (w : PortWord) (u : State) : presentWord w u ≠ .fault f := by
    unfold presentWord
    split
    · exact exec_not_fault _ u f
    · simp
  unfold hostMove
  split
  · simp
  · exact hword _ _
  · unfold presentWrreg
    split
    · exact hword _ _
    · simp
    · simp
  · simp
  · split <;> simp
  · simp

/-! ### Steps -/

/-- A due reset is the step (R145, R160). -/
theorem step_reset {s : State} (h : resetDue s.resets = true) : step s = .next (resetOp (s.withResets s.resets.tail)) := by
  simp [step, transition, h]

/-- A busy machine's step inside its sequence: the pin write at `UPC`, counted (R19). -/
theorem step_busy_inside {s : State} (hb : s.busy = true) (hr : resetDue s.resets = false)
    (hu : s.upc.toNat < (pwSeq s.op s.ha s.hb).length) :
    step s = .next ((pinWrite (Claims.currentWrite s).1 (Claims.currentWrite s).2 (s.withResets (tickResets s.resets))).advance
      (pwSeq s.op s.ha s.hb).length) := by
  have hw : (pwSeq s.op s.ha s.hb)[s.upc.toNat] = Claims.currentWrite s :=
    Option.some_inj.mp ((List.getElem?_eq_getElem hu).symm.trans (getElem?_pwSeq_upc hu))
  rw [step_busy s hr hb, microStep_inside (s.withResets (tickResets s.resets)) hu]
  simp [hw]

/-- A step of a busy machine with a next state, no reset due: `UPC` was inside the sequence. -/
theorem step_busy_next {s t : State} (hb : s.busy = true) (hr : resetDue s.resets = false) (h : step s = .next t) :
    s.upc.toNat < (pwSeq s.op s.ha s.hb).length ∧
      t = (pinWrite (Claims.currentWrite s).1 (Claims.currentWrite s).2 (s.withResets (tickResets s.resets))).advance
        (pwSeq s.op s.ha s.hb).length := by
  have hu : s.upc.toNat < (pwSeq s.op s.ha s.hb).length := by
    rw [step_busy s hr hb] at h
    obtain ⟨w, hw, -⟩ := microStep_next _ t h
    exact (List.getElem?_eq_some_iff.mp hw).1
  rw [step_busy_inside hb hr hu] at h
  cases h
  exact ⟨hu, rfl⟩

/-- `UPC` has room for the length of every sequence, so its increment does not wrap. -/
theorem toNat_upc_succ {s : State} (hu : s.upc.toNat < (pwSeq s.op s.ha s.hb).length) :
    (s.upc + 1#6).toNat = s.upc.toNat + 1 := by
  have := length_pwSeq_le s.op s.ha s.hb
  rw [BitVec.toNat_add, BitVec.toNat_ofNat]
  omega

/-- `BUSY` falls with the last pin write of the sequence (R19). -/
theorem busyAfterWrite_running {s : State} (hb : s.busy = true) (hu : s.upc.toNat < (pwSeq s.op s.ha s.hb).length) :
    busyAfterWrite (s.upc + 1#6) (pwSeq s.op s.ha s.hb).length s.busy = decide (s.upc.toNat + 1 < (pwSeq s.op s.ha s.hb).length) := by
  rw [busyAfterWrite, toNat_upc_succ hu, hb]
  split_ifs with hend
  · simp [hend]
  · exact (decide_eq_true (by omega)).symm

/-! ### What the target holds is not read (R43) -/

/-- The state with another target. -/
def State.withTarget (s : State) (r : Memory) (x : Rx) : State := { s with reg := r, rx := x }

/-- Two outcomes that only the target can tell apart: both stop alike, or both go on to states equal but for the target. -/
def SameButTarget (u v : Host.Outcome State Fault Refusal) : Prop := Claims.blindToTarget u = Claims.blindToTarget v

theorem sameButTarget_next {t u : State} (r : Memory) (x : Rx) (h : t = u.withTarget r x) : SameButTarget (.next t) (.next u) := by
  rw [h]; rfl

theorem exec_withTarget (i : Instr) (s : State) (r : Memory) (x : Rx) : SameButTarget (exec i (s.withTarget r x)) (exec i s) := by
  have hbusy : (s.withTarget r x).busy = s.busy := rfl
  cases hb : s.busy with
  | true => rw [exec_busy i hb, exec_busy i (hbusy.trans hb)]; rfl
  | false =>
    rcases exec_eq_issue i with ⟨o, b, -, he⟩ | ⟨a, d, he⟩ | ⟨b, -, he⟩ <;> rw [he]
    · rw [issuePinOp_ready _ _ _ _ hb, issuePinOp_ready _ _ _ _ (hbusy.trans hb)]; exact sameButTarget_next r x rfl
    · rw [issuePinOp_ready _ _ _ _ hb, issuePinOp_ready _ _ _ _ (hbusy.trans hb)]; exact sameButTarget_next r x rfl
    · rw [issueEncode_ready _ _ hb, issueEncode_ready _ _ (hbusy.trans hb)]; exact sameButTarget_next r x rfl

theorem presentWord_withTarget (w : PortWord) (s : State) (r : Memory) (x : Rx) :
    SameButTarget (presentWord w (s.withTarget r x)) (presentWord w s) := by
  cases hw : decode w with
  | op i => rw [presentWord_of_op _ hw, presentWord_of_op _ hw]; exact exec_withTarget i s r x
  | rejected q => rw [presentWord_of_rejected _ hw, presentWord_of_rejected _ hw]; rfl

theorem microStep_withTarget (s : State) (r : Memory) (x : Rx) : SameButTarget (microStep (s.withTarget r x)) (microStep s) := by
  have hseq : (pwSeq (s.withTarget r x).op (s.withTarget r x).ha (s.withTarget r x).hb)[(s.withTarget r x).upc.toNat]? =
    (pwSeq s.op s.ha s.hb)[s.upc.toNat]? := rfl
  rw [microStep, microStep, hseq]
  cases (pwSeq s.op s.ha s.hb)[s.upc.toNat]? with
  | none => rfl
  | some w => obtain ⟨p, v⟩ := w; cases p <;> rfl

theorem hostMove_withTarget (s : State) (r : Memory) (x : Rx) : SameButTarget (hostMove (s.withTarget r x)) (hostMove s) := by
  have hhost : (s.withTarget r x).host = s.host := rfl
  unfold hostMove
  rw [hhost]
  cases s.host with
  | nil => rfl
  | cons act rest =>
    cases act with
    | present w => exact presentWord_withTarget w (s.withHost rest) r x
    | presentWrreg a d =>
      have hop (o : WrregOperand) : (s.withTarget r x).operand o = s.operand o := by cases o <;> rfl
      simp only [hop]
      cases s.operand a with
      | none => rfl
      | some a =>
        cases s.operand d with
        | none => rfl
        | some d => exact presentWord_withTarget _ (s.withHost rest) r x
    | takeRes v dp => rfl
    | call m =>
      cases hm : expand 0 m with
      | ok acts => simp only [hm]; rfl
      | error q => simp only [hm]; rfl
    | wait => rfl

theorem step_withTarget (s : State) (r : Memory) (x : Rx) : SameButTarget (step (s.withTarget r x)) (step s) := by
  cases hr : resetDue s.resets with
  | true => rw [step_reset hr, step_reset (s := s.withTarget r x) hr]; rfl
  | false =>
    cases hb : s.busy with
    | true =>
      rw [step_busy s hr hb, step_busy (s.withTarget r x) hr hb]
      exact microStep_withTarget (s.withResets (tickResets s.resets)) r x
    | false =>
      rw [step_idle s hr hb, step_idle (s.withTarget r x) hr hb]
      exact hostMove_withTarget (s.withResets (tickResets s.resets)) r x

end Sys2Proof.Machine

namespace Sys2Proof.Claims

open Sys2Proof.Machine

/-- Settles O39: each branch of a step takes its decision from a field that is not the target's. -/
theorem targetIsNeverRead : Obligations.TargetIsNeverRead := step_withTarget

/-- Settles O18: neither a pin write nor any other move of the host writes `RES`. -/
theorem onlyTheEncoderWritesTheResult : Obligations.OnlyTheEncoderWritesTheResult := by
  intro s t h hres
  rcases step_next s t h with ⟨hr, -⟩ | ⟨-, -, hm⟩ | ⟨-, hb, hm⟩
  · exact .inl hr
  · obtain ⟨w, -, rfl⟩ := microStep_next _ t hm
    exact absurd (by simp) hres
  · exact .inr ⟨hb, hostMove_res_ne (s := s.withResets (tickResets s.resets)) hm hres⟩

/-- Settles O36: the receiver's own cases, for the one event a step can be. -/
theorem targetChangesOnlyAtTheEndOfAFrame : Obligations.TargetChangesOnlyAtTheEndOfAFrame := by
  intro s t h
  rcases step_next s t h with ⟨-, rfl⟩ | ⟨-, -, hm⟩ | ⟨-, -, hm⟩
  · by_cases hsel : s.rx.sel = false
    · exact .inr (.inl (by simp [onRst, hsel, Memory.allUnknown]))
    · exact .inl (by simp [onRst, hsel])
  · obtain ⟨w, -, rfl⟩ := microStep_next _ t hm
    rcases observe_reg_cases (.write w.1 w.2) (s.reg, s.rx) with hreg | ⟨he, hsel, hwf, hreg⟩ | hreg
    · exact .inl ((pinWrite_reg _ _ _).trans hreg)
    · obtain ⟨hp, hv⟩ : w.1 = .cs ∧ w.2 = true := by simpa using he
      simp only [Rx.wellFormedFrame, Bool.and_eq_true, decide_eq_true_eq, Bool.not_eq_true'] at hwf
      obtain ⟨⟨hcnt, hbad⟩, hclk⟩ := hwf
      refine .inr (.inr ⟨by simp [hp, hv], hsel, hcnt, hbad, hclk, ?_⟩)
      exact (pinWrite_reg _ _ _).trans hreg
    · exact .inr (.inl ((pinWrite_reg _ _ _).trans hreg))
  · obtain ⟨-, -, -, -, hreg, -⟩ := hostMove_wire hm
    exact .inl (by simpa using hreg)

/-- Settles O11: the step is the pin write of the closed form, counted. -/
theorem busyStepIsOnePinWrite : Obligations.BusyStepIsOnePinWrite := by
  intro s hb hr hu
  have hlen := length_pwSeq s.op s.ha s.hb
  have hinside : s.upc.toNat < (pwSeq s.op s.ha s.hb).length := hu.trans_eq hlen.symm
  refine ⟨_, step_busy_inside hb hr hinside, ?pin, ?pins, by simp [eventOf], by simp [eventOf], ?upc, ?busy, by simp, by simp, by simp,
    by simp, by simp, by simp, ?resets⟩
  case pin => exact (State.pin_setPin _ _ _ _).trans (if_pos rfl)
  case pins => exact fun q hq => (State.pin_setPin _ _ q _).trans (if_neg hq.symm)
  case upc =>
    rw [State.advance_upc, pinWrite_upc]
    exact toNat_upc_succ hinside
  case busy =>
    rw [State.advance_busy, pinWrite_upc, pinWrite_busy]
    exact (busyAfterWrite_running hb hinside).trans (congrArg (fun n => decide (s.upc.toNat + 1 < n)) hlen)
  case resets =>
    rw [State.advance_resets, pinWrite_resets, State.withResets_resets]
    cases s.resets <;> rfl

/-- Settles O3: a due reset is the step, and the receiver's own reset rule gives the target. -/
theorem dueResetTakesTheResetValues : Obligations.DueResetTakesTheResetValues := by
  intro s rest h
  rw [step_reset (by rw [h]; rfl), h]
  rfl

/-- Settles O12: one pin, the record of the write, and the rest of the state as it was. -/
theorem pinWriteSetsOnePinAndIsRecorded : Obligations.PinWriteSetsOnePinAndIsRecorded := by
  intro p v s
  refine ⟨(State.pin_setPin s p p v).trans (if_pos rfl), fun q hq => (State.pin_setPin s p q v).trans (if_neg hq.symm), ?_⟩
  simp

/-- Settles O13: both ways of accepting an instruction ask for the port. -/
theorem busyPortAcceptsNoInstruction : Obligations.BusyPortAcceptsNoInstruction := fun i _ h => exec_busy i h

/-- Settles O14: acceptance is `load`, for a named frame at its address. -/
theorem issueLoadsTheHoldingRegisters : Obligations.IssueLoadsTheHoldingRegisters := by
  refine fun s h => ⟨fun o b => ?_, fun a d => exec_wrreg_ready a d h, fun p hp d => ?_⟩
  · rw [exec_shift8_ready o b h]
    cases o <;> rfl
  · rw [exec_namedFrames d p hp]
    exact exec_wrreg_ready p.2 d h

/-- Settles O15: acceptance of `ENCD` is the write of `RES`. -/
theorem encdWritesTheDigitPattern : Obligations.EncdWritesTheDigitPattern :=
  fun d s h => issueEncode_ready (digitPattern d) s h

end Sys2Proof.Claims
end

section
/-! SUPPORT. The invariant (R14, R17, R22, R39, R44, R92). The receiver's levels follow the pin writes, chip-select is low exactly between the
first and the last write of a frame, and each kind of step keeps the invariant: a reset, a pin write, a move of the host. -/

namespace Sys2Proof.Machine

open Sys2Proof.Claims

/-! ### Levels and the receiver along a list of pin writes -/

/-- A pin that no write names keeps its level. -/
theorem levelAfter_of_forall_ne {p : Pin} {ws : List PinWrite} (v : Level) (h : ∀ w ∈ ws, w.1 ≠ p) : levelAfter p v ws = v := by
  induction ws generalizing v with
  | nil => rfl
  | cons w ws ih =>
    rw [List.forall_mem_cons] at h
    obtain ⟨hw, hws⟩ := h
    simpa [levelAfter, hw] using ih v hws

/-- The receiver's view of each pin is the level the writes leave (R39). -/
theorem observeAll_levels (ws : List PinWrite) (t : Target) :
    (observeAll (ws.map eventOf) t).2.sel = levelAfter .cs t.2.sel ws ∧
    (observeAll (ws.map eventOf) t).2.clk = levelAfter .clk t.2.clk ws ∧
    (observeAll (ws.map eventOf) t).2.din = levelAfter .din t.2.din ws := by
  induction ws generalizing t with
  | nil => exact ⟨rfl, rfl, rfl⟩
  | cons w ws ih =>
    obtain ⟨hsel, hclk, hdin⟩ := observe_write_levels w.1 w.2 t
    have hrest := ih (observe (.write w.1 w.2) t)
    rw [hsel, hclk, hdin] at hrest
    exact hrest

/-- Inside a frame no write of data or clock changes the register file (R46, R59). -/
theorem observe_reg_inside {w : PinWrite} {t : Target} (hw : w.1 ≠ .cs) (hsel : t.2.sel = false) :
    (observe (eventOf w) t).1 = t.1 := by
  obtain ⟨p, v⟩ := w
  cases p with
  | din => rfl
  | clk => simp only [eventOf, observe, onClk, hsel]; split_ifs <;> rfl
  | cs => exact absurd rfl hw

theorem observeAll_reg_inside {ws : List PinWrite} {t : Target} (h : ∀ w ∈ ws, w.1 ≠ .cs) (hsel : t.2.sel = false) :
    (observeAll (ws.map eventOf) t).1 = t.1 := by
  induction ws generalizing t with
  | nil => rfl
  | cons w ws ih =>
    rw [List.forall_mem_cons] at h
    obtain ⟨hw, hws⟩ := h
    have hstill : (observe (eventOf w) t).2.sel = false := by
      obtain ⟨hs, -, -⟩ := observe_write_levels w.1 w.2 t
      exact hs.trans (by rw [if_neg hw, hsel])
    rw [List.map_cons, observeAll_cons, ih hws hstill, observe_reg_inside hw hsel]

/-- What an event does to the framing state does not depend on the register file. -/
theorem observe_rx_congr (e : Event) (m m' : Memory) (r : Rx) : (observe e (m, r)).2 = (observe e (m', r)).2 := by
  cases e with
  | rst => rfl
  | write p v =>
    cases p with
    | din => rfl
    | clk => simp only [observe, onClk]; split_ifs <;> rfl
    | cs => cases v <;> simp only [observe, onCs] <;> split_ifs <;> rfl

/-- Two framing states hold the same bits of a frame and have seen the same wrong of it. -/
def SameProgress (x r : Rx) : Prop := x.sh = r.sh ∧ x.cnt = r.cnt ∧ x.bad = r.bad

/-- The fall of chip-select starts a frame afresh, whatever came before (R46). -/
theorem sameProgress_fall (m m' : Memory) {x r : Rx} (hx : x.sel = true) (hsel : x.sel = r.sel) (hclk : x.clk = r.clk) :
    SameProgress (observe (.write .cs false) (m, x)).2 (observe (.write .cs false) (m', r)).2 := by
  simp [SameProgress, observe, onCs, ← hsel, hx, hclk]

/-- With the clock low a data write is no progress and nothing wrong, whatever level the line had (R46). -/
theorem sameProgress_data (m m' : Memory) (v : Level) {x r : Rx} (hx : x.clk = false) (hclk : x.clk = r.clk)
    (h : SameProgress x r) : SameProgress (observe (.write .din v) (m, x)).2 (observe (.write .din v) (m', r)).2 := by
  obtain ⟨hsh, hcnt, hbad⟩ := h
  simp [SameProgress, observe, onDin, ← hclk, hx, hsh, hcnt, hbad]

/-! ### Chip-select in the two sequences (R168) -/

theorem pulse_ne_cs (v : Level) : ∀ w ∈ pulse v, w.1 ≠ .cs := by
  simp [pulse]

/-- A `SHIFT8` never writes chip-select (R84). -/
theorem pwShift8_ne_cs (o : BitOrder) (b : Byte) : ∀ w ∈ pwShift8 o b, w.1 ≠ .cs := by
  intro w hw
  obtain ⟨i, -, hi⟩ := List.mem_flatMap.mp hw
  exact pulse_ne_cs _ w hi

theorem framePulses_ne_cs (a d : Byte) : ∀ w ∈ framePulses a d, w.1 ≠ .cs := by
  intro w hw
  obtain ⟨j, -, hj⟩ := List.mem_flatMap.mp hw
  exact pulse_ne_cs _ w hj

/-- The first `k` writes of a frame, once it has begun and before its end: the fall of chip-select and the first of its pulses. -/
theorem take_pwWrreg (a d : Byte) {k : Nat} (h : k ≤ 48) :
    (pwWrreg a d).take (k + 1) = (.cs, false) :: (framePulses a d).take k := by
  rw [pwWrreg_eq_pulses, List.append_assoc, List.singleton_append, List.take_succ_cons, List.take_append_of_le_length h]

/-- Chip-select is low after 1 to 49 pin writes of a frame (R90). -/
theorem levelAfter_cs_take_pwWrreg (a d : Byte) (v : Level) {k : Nat} (h1 : 1 ≤ k) (h49 : k ≤ 49) :
    levelAfter .cs v ((pwWrreg a d).take k) = false := by
  obtain ⟨k, rfl⟩ := Nat.exists_eq_add_of_le' h1
  rw [take_pwWrreg a d (by omega)]
  exact levelAfter_of_forall_ne false fun w hw => framePulses_ne_cs a d w (List.mem_of_mem_take hw)

/-- A whole sequence begun at rest leaves chip-select high and the clock low (R22). -/
theorem levelAfter_pwSeq (k : OpKind) (ha hb : Byte) :
    levelAfter .cs true (pwSeq k ha hb) = true ∧ levelAfter .clk false (pwSeq k ha hb) = false := by
  cases k with
  | shift8 => exact ⟨levelAfter_of_forall_ne true (pwShift8_ne_cs _ hb), rfl⟩
  | wrreg => exact ⟨rfl, rfl⟩

/-! ### The pin writes performed so far -/

/-- A pin write of the running operation is one more performed. -/
theorem performed_advance {s : State} (p : Pin) (v : Level) (n : Nat) (r : List Nat)
    (hu : s.upc.toNat < (pwSeq s.op s.ha s.hb).length) :
    ((pinWrite p v (s.withResets r)).advance n).performed = s.performed ++ [currentWrite s] := by
  simp only [State.performed, State.advance_op, State.advance_ha, State.advance_hb, State.advance_upc, pinWrite_op, pinWrite_ha,
    pinWrite_hb, pinWrite_upc, State.withResets_op, State.withResets_ha, State.withResets_hb, State.withResets_upc, toNat_upc_succ hu]
  rw [List.take_add_one, getElem?_pwSeq_upc hu]
  rfl

/-- The first `k` pin writes of a frame put chip-select low and then a bit on the data line. -/
theorem exists_take_pwWrreg (a d : Byte) {k : Nat} (h : 2 ≤ k) :
    ∃ v ws, (pwWrreg a d).take k = (.cs, false) :: (.din, v) :: ws := by
  obtain ⟨k, rfl⟩ := Nat.exists_eq_add_of_le' h
  exact ⟨_, _, rfl⟩

/-! ### The invariant -/

section
variable {s : State}

/-- What the invariant says is kept while S7X's own registers, the wire and the target are: the host may move. -/
theorem Inv.of_same_machine {t : State} (h : Inv s) (hv : t.vars.wf = true)
    (ht : t = { s with res := t.res, host := t.host, vars := t.vars, resets := t.resets }) : Inv t := by
  rw [ht]
  exact { h with varsWf := hv }

/-- Chip-select is low only while a frame runs (R168). -/
theorem Inv.wrreg_of_cs_low (h : Inv s) (hcs : s.cs = false) : s.busy = true ∧ s.op = .wrreg := by
  constructor
  · cases hb : s.busy with
    | true => rfl
    | false => exact absurd (h.idleCs hb) (by simp [hcs])
  · cases hop : s.op with
    | wrreg => rfl
    | shift8 =>
      have hhigh : s.cs = true := by
        rw [h.csTrack, State.performed, hop]
        exact levelAfter_of_forall_ne true fun w hw => pwShift8_ne_cs _ _ w (List.mem_of_mem_take hw)
      exact absurd hhigh (by simp [hcs])

/-- In a frame, after its first pin write and before its last, chip-select is low. -/
theorem Inv.cs_low_in_frame (h : Inv s) (hop : s.op = .wrreg) (h1 : 1 ≤ s.upc.toNat) (h49 : s.upc.toNat ≤ 49) : s.cs = false := by
  rw [h.csTrack, State.performed, hop]
  exact levelAfter_cs_take_pwWrreg s.ha s.hb true h1 h49

/-- A reset gives a state of the invariant (R49, R160). -/
theorem Inv.resetOp (h : Inv s) : Inv (resetOp s) where
  regWf := by simp only [resetOp_reg, onRst]; split_ifs; exacts [rfl, h.regWf]
  regSpace := by simp only [resetOp_reg, onRst]; split_ifs; exacts [rfl, h.regSpace]
  varsWf := h.varsWf
  received := by rw [resetOp_trace, receive_append, h.received]; rfl
  rxSel := rfl
  rxClk := rfl
  rxDin := rfl
  holding := fun hop => by cases hop
  upcRange := Nat.zero_le _
  upcBusy := fun hb => by cases hb
  idleCs := fun _ => rfl
  idleClk := fun _ => rfl
  csTrack := rfl
  clkTrack := rfl
  dinTrack := ⟨false, rfl⟩
  frameTrack := fun _ hu => absurd rfl hu

/-- Accepting an operation on an idle machine keeps it (R18). -/
theorem Inv.load (h : Inv s) (hb : s.busy = false) (k : OpKind) (a d : Byte) (ha : k = .shift8 → a.extractLsb' 1 7 = 0#7) :
    Inv (s.load k a d) where
  regWf := h.regWf
  regSpace := h.regSpace
  varsWf := h.varsWf
  received := h.received
  rxSel := h.rxSel
  rxClk := h.rxClk
  rxDin := h.rxDin
  holding := ha
  upcRange := Nat.zero_le _
  upcBusy := fun _ => by
    change 0 < (pwSeq k a d).length
    rw [length_pwSeq]
    cases k <;> decide
  idleCs := fun hf => by cases hf
  idleClk := fun hf => by cases hf
  csTrack := h.idleCs hb
  clkTrack := h.idleClk hb
  dinTrack := ⟨s.din, rfl⟩
  frameTrack := fun _ hu => absurd rfl hu

theorem Inv.exec {i : Instr} {t : State} (h : Inv s) (he : exec i s = .next t) : Inv t := by
  obtain ⟨hb, ⟨o, b, -, rfl⟩ | ⟨a, d, rfl⟩ | ⟨b, rfl⟩⟩ := exec_next i s t he
  · exact h.load hb _ _ _ fun _ => by cases o <;> rfl
  · exact h.load hb _ _ _ fun hk => by cases hk
  · exact h.of_same_machine h.varsWf rfl

theorem Inv.hostMove {t : State} (h : Inv s) (hm : hostMove s = .next t) : Inv t := by
  rcases hostMove_next s t hm with rfl | ⟨i, rest, hi⟩ | ⟨rest, v, b, rfl⟩ | ⟨rest, rfl⟩
  · exact h
  · exact (h.of_same_machine (t := s.withHost rest) h.varsWf rfl).exec hi
  · exact h.of_same_machine (Memory.wf_write _ _ _ h.varsWf) rfl
  · exact h.of_same_machine h.varsWf rfl

/-- One more pin write of a frame keeps the receiver's progress: the bits so far are those a receiver begun at reset would hold. -/
theorem Inv.frameTrack_succ (h : Inv s) (hop : s.op = .wrreg) (hu : s.upc.toNat < 50) :
    SameProgress (observe (eventOf (currentWrite s)) (s.reg, s.rx)).2
      (observeAll ((s.performed ++ [currentWrite s]).map eventOf) (Memory.allUnknown, Rx.reset)).2 := by
  have hw : currentWrite s = frameWrite s.ha s.hb s.upc.toNat := by simp [currentWrite, hop]
  have hperf : s.performed = (pwWrreg s.ha s.hb).take s.upc.toNat := by rw [State.performed, hop]; rfl
  rw [List.map_append, observeAll_append, List.map_singleton, observeAll_cons, observeAll_nil]
  obtain ⟨hsel, hclk, hdin⟩ := observeAll_levels s.performed (Memory.allUnknown, Rx.reset)
  have htrack : s.upc ≠ 0#6 → SameProgress s.rx (observeAll (s.performed.map eventOf) (Memory.allUnknown, Rx.reset)).2 :=
    h.frameTrack hop
  generalize observeAll (s.performed.map eventOf) (Memory.allUnknown, Rx.reset) = t at hsel hclk hdin htrack ⊢
  have hsel' : s.rx.sel = t.2.sel := by rw [h.rxSel, h.csTrack, hsel]; rfl
  have hclk' : s.rx.clk = t.2.clk := by rw [h.rxClk, h.clkTrack, hclk]; rfl
  rcases Nat.lt_or_ge s.upc.toNat 2 with hlt | hge
  · interval_cases hk : s.upc.toNat
    · have hhigh : s.rx.sel = true := by rw [h.rxSel, h.csTrack, hperf]; rfl
      rw [hw]
      exact sameProgress_fall s.reg t.1 hhigh hsel' hclk'
    · have hlow : s.rx.clk = false := by rw [h.rxClk, h.clkTrack, hperf]; rfl
      rw [hw]
      exact sameProgress_data s.reg t.1 _ hlow hclk' (htrack fun hz => by simp [hz] at hk)
  · have hrx : s.rx = t.2 := by
      obtain ⟨hsh, hcnt, hbad⟩ := htrack fun hz => by simp [hz] at hge
      have hdin' : s.rx.din = t.2.din := by
        obtain ⟨v, hv⟩ := h.dinTrack
        obtain ⟨v1, ws, hws⟩ := exists_take_pwWrreg s.ha s.hb hge
        rw [h.rxDin, hv, hdin, hperf, hws]
        rfl
      calc s.rx = ⟨s.rx.sel, s.rx.clk, s.rx.din, s.rx.sh, s.rx.cnt, s.rx.bad⟩ := rfl
        _ = t.2 := by rw [hsel', hclk', hdin', hsh, hcnt, hbad]
    rw [hrx, observe_rx_congr _ s.reg t.1]
    exact ⟨rfl, rfl, rfl⟩

/-- A pin write of the running operation keeps the invariant (R19). -/
theorem Inv.busy_step (h : Inv s) (hb : s.busy = true) (r : List Nat) (hu : s.upc.toNat < (pwSeq s.op s.ha s.hb).length) :
    Inv ((pinWrite (currentWrite s).1 (currentWrite s).2 (s.withResets r)).advance (pwSeq s.op s.ha s.hb).length) := by
  set w := currentWrite s with hw
  set t := (pinWrite w.1 w.2 (s.withResets r)).advance (pwSeq s.op s.ha s.hb).length with ht
  have hperf : t.performed = s.performed ++ [w] := performed_advance _ _ _ _ hu
  have htarget : (t.reg, t.rx) = observe (eventOf w) (s.reg, s.rx) := by simp [ht, eventOf]
  have hreg : t.reg = (observe (eventOf w) (s.reg, s.rx)).1 := congrArg Prod.fst htarget
  obtain ⟨hsel, hclk, hdin⟩ := observe_write_levels w.1 w.2 (s.reg, s.rx)
  have hupc : t.upc.toNat = s.upc.toNat + 1 := by
    rw [ht, State.advance_upc, pinWrite_upc]
    exact toNat_upc_succ hu
  have hseq : pwSeq t.op t.ha t.hb = pwSeq s.op s.ha s.hb := by simp [ht]
  have hbusy : t.busy = decide (t.upc.toNat < (pwSeq s.op s.ha s.hb).length) := by
    rw [hupc, ← busyAfterWrite_running hb hu, ht, State.advance_busy, pinWrite_upc, pinWrite_busy]
    rfl
  have hcsTrack : t.cs = levelAfter .cs true t.performed := by
    rw [hperf, levelAfter_append, ← h.csTrack]
    simp [ht, levelAfter]
  have hclkTrack : t.clk = levelAfter .clk false t.performed := by
    rw [hperf, levelAfter_append, ← h.clkTrack]
    simp [ht, levelAfter]
  have hwhole (hidle : t.busy = false) : t.performed = pwSeq s.op s.ha s.hb := by
    rw [hbusy, decide_eq_false_iff_not] at hidle
    have hend : t.upc.toNat = (pwSeq s.op s.ha s.hb).length := by omega
    rw [State.performed, hseq, hend, List.take_length]
  obtain ⟨hcsEnd, hclkEnd⟩ := levelAfter_pwSeq s.op s.ha s.hb
  exact
    { regWf := hreg ▸ observe_wf (eventOf w) (s.reg, s.rx) h.regWf
      regSpace := hreg ▸ observe_inRegisterSpace (eventOf w) (s.reg, s.rx) h.regSpace
      varsWf := by simpa [ht] using h.varsWf
      received := by
        rw [htarget, ← h.received, ← receive_append]
        simp [ht, eventOf]
      rxSel := by simpa [ht, h.rxSel] using hsel
      rxClk := by simpa [ht, h.rxClk] using hclk
      rxDin := by simpa [ht, h.rxDin] using hdin
      holding := by simpa [ht] using h.holding
      upcRange := by rw [hseq, hupc]; exact hu
      upcBusy := fun hrun => by
        rw [hseq]
        exact of_decide_eq_true (hbusy ▸ hrun)
      idleCs := fun hidle => by rw [hcsTrack, hwhole hidle, hcsEnd]
      idleClk := fun hidle => by rw [hclkTrack, hwhole hidle, hclkEnd]
      csTrack := hcsTrack
      clkTrack := hclkTrack
      dinTrack := by
        obtain ⟨v, hv⟩ := h.dinTrack
        refine ⟨v, ?_⟩
        rw [hperf, levelAfter_append, ← hv]
        simp [ht, levelAfter]
      frameTrack := fun hop _ => by
        have hop' : s.op = .wrreg := by simpa [ht] using hop
        rw [hop'] at hu
        have hrx : t.rx = (observe (eventOf w) (s.reg, s.rx)).2 := congrArg Prod.snd htarget
        rw [hperf, hrx]
        exact h.frameTrack_succ hop' hu }

/-- Every step keeps the invariant. -/
theorem Inv.step {t : State} (h : Inv s) (hstep : step s = .next t) : Inv t := by
  rcases step_next s t hstep with ⟨-, rfl⟩ | ⟨hr, hb, -⟩ | ⟨-, -, hm⟩
  · exact (h.of_same_machine (t := s.withResets s.resets.tail) h.varsWf rfl).resetOp
  · obtain ⟨hu, rfl⟩ := step_busy_next hb hr hstep
    exact h.busy_step hb _ hu
  · exact (h.of_same_machine (t := s.withResets (tickResets s.resets)) h.varsWf rfl).hostMove hm

/-- A pin write of a frame, in a state of the invariant: no register changes before the last, which writes the byte in `HB` to the
register in `HA` (R92). -/
theorem Inv.frame_write_reg (h : Inv s) (hop : s.op = .wrreg) (hu : s.upc.toNat < 50) :
    (observe (eventOf (currentWrite s)) (s.reg, s.rx)).1 =
      if s.upc.toNat = 49 then s.reg.write s.ha.toNat s.hb else s.reg := by
  have hw : currentWrite s = frameWrite s.ha s.hb s.upc.toNat := by simp [currentWrite, hop]
  split_ifs with h49
  · have hcs : s.rx.sel = false := h.rxSel.trans (h.cs_low_in_frame hop (by omega) (by omega))
    have hperf : s.performed = (pwWrreg s.ha s.hb).take 49 := by rw [State.performed, hop, h49]; rfl
    have hclk : s.rx.clk = false := by rw [h.rxClk, h.clkTrack, hperf]; rfl
    obtain ⟨hsh, hcnt, hbad⟩ := h.frameTrack hop (fun hz => by simp [hz] at h49)
    rw [hperf, observe_frame_body _ _ _ _ rfl rfl] at hsh hcnt hbad
    have hrise : currentWrite s = (.cs, true) := by rw [hw, h49]; rfl
    simp [hrise, eventOf, observe, onCs, hcs, Rx.wellFormedFrame, hcnt, hbad, hclk, memWrite, Rx.address, Rx.data, hsh,
      extract_address, extract_data, -BitVec.extractLsb'_toNat]
  · rcases Nat.eq_zero_or_pos s.upc.toNat with hz | hpos
    · have hfall : currentWrite s = (.cs, false) := by rw [hw, hz]; rfl
      simp only [hfall, eventOf, observe, onCs]
      split_ifs <;> rfl
    · have hcs : s.rx.sel = false := h.rxSel.trans (h.cs_low_in_frame hop hpos (by omega))
      refine observe_reg_inside ?_ hcs
      simp only [hw, frameWrite, Nat.ne_of_gt hpos, h49, if_false]
      split_ifs <;> simp

/-- Where the clock rises, chip-select is low in a frame (R168). -/
theorem Inv.cs_low_of_clock_rise (h : Inv s) (hop : s.op = .wrreg) (hu : s.upc.toNat < 50) (hrise : (currentWrite s) = (.clk, true)) :
    s.cs = false := by
  have hw : currentWrite s = frameWrite s.ha s.hb s.upc.toNat := by simp [currentWrite, hop]
  have h0 : s.upc.toNat ≠ 0 := fun h0 => by simp [hw, frameWrite, h0] at hrise
  have h49 : s.upc.toNat ≠ 49 := fun h49 => by simp [hw, frameWrite, h49] at hrise
  exact h.cs_low_in_frame hop (by omega) (by omega)

end

end Sys2Proof.Machine

namespace Sys2Proof.Claims

open Sys2Proof.Machine

/-- Settles O34: a reset, a pin write and a move of the host each keep the invariant. -/
theorem stepKeepsTheInvariant : Obligations.StepKeepsTheInvariant := fun _ _ h hstep => h.step hstep

/-- Settles O37: inside a frame only the last pin write touches the register file, and a move of the host never does. -/
theorem onlyResetOrABareShiftLosesTheTarget : Obligations.OnlyResetOrABareShiftLosesTheTarget := by
  intro s t h hstep
  rcases step_next s t hstep with ⟨hr, rfl⟩ | ⟨hr, hb, -⟩ | ⟨-, -, hm⟩
  · by_cases hsel : s.rx.sel = false
    · exact .inr (.inr ⟨by simp [onRst, hsel, Memory.allUnknown], .inl ⟨hr, h.rxSel ▸ hsel⟩⟩)
    · exact .inl (by simp [onRst, hsel])
  · obtain ⟨hu, rfl⟩ := step_busy_next hb hr hstep
    have hreg := pinWrite_reg (currentWrite s).1 (currentWrite s).2 (s.withResets (tickResets s.resets))
    cases hop : s.op with
    | shift8 =>
      rcases observe_reg_cases (eventOf (currentWrite s)) (s.reg, s.rx) with hsame | ⟨he, -⟩ | hlost
      · exact .inl (hreg.trans hsame)
      · have hmem : currentWrite s ∈ pwSeq s.op s.ha s.hb := List.mem_of_getElem? (getElem?_pwSeq_upc hu)
        rw [hop] at hmem
        obtain ⟨hp, -⟩ : (currentWrite s).1 = .cs ∧ (currentWrite s).2 = true := by simpa [eventOf] using he
        exact absurd hp (pwShift8_ne_cs _ _ _ hmem)
      · exact .inr (.inr ⟨hreg.trans hlost, .inr ⟨hb, rfl⟩⟩)
    | wrreg =>
      rw [hop] at hu
      have hwrite := h.frame_write_reg hop hu
      split_ifs at hwrite with h49
      · refine .inr (.inl ⟨hb, rfl, BitVec.eq_of_toNat_eq h49, ?_, hreg.trans hwrite⟩)
        have hupc : (s.upc + 1#6).toNat = 50 := by rw [BitVec.toNat_add, h49]; rfl
        simp [busyAfterWrite, hupc, length_pwSeq]
      · exact .inl (hreg.trans hwrite)
  · obtain ⟨-, -, -, -, hreg, -⟩ := hostMove_wire hm
    exact .inl hreg

/-- Settles O35: with `UPC` inside its sequence a pin write is made, and neither a reset nor the host can fault. -/
theorem noStepFaultsAndARunningOperationGoesOn : Obligations.NoStepFaultsAndARunningOperationGoesOn := by
  intro s h
  cases hr : resetDue s.resets with
  | true => rw [step_reset hr]; exact ⟨fun f => by simp, fun _ => ⟨_, rfl⟩⟩
  | false =>
    cases hb : s.busy with
    | true => rw [step_busy_inside hb hr (h.upcBusy hb)]; exact ⟨fun f => by simp, fun _ => ⟨_, rfl⟩⟩
    | false => rw [step_idle s hr hb]; exact ⟨fun f => hostMove_not_fault _ f, fun hf => by cases hf⟩

/-- Settles O38: a rise of the clock is a pin write, and in a frame it stands between the writes of chip-select. -/
theorem clockRisesOnlyInsideAFrameOrABareShift : Obligations.ClockRisesOnlyInsideAFrameOrABareShift := by
  refine fun s t h hstep => ⟨fun hhigh hlow => ?_, h.wrreg_of_cs_low⟩
  rcases step_next s t hstep with ⟨-, rfl⟩ | ⟨hr, hb, -⟩ | ⟨-, -, hm⟩
  · cases hhigh
  · obtain ⟨hu, rfl⟩ := step_busy_next hb hr hstep
    refine ⟨hb, ?_⟩
    cases hop : s.op with
    | shift8 => exact .inr rfl
    | wrreg =>
      rw [hop] at hu
      have hrise : currentWrite s = (.clk, true) := by
        simp only [State.advance_clk, pinWrite_clk, State.withResets_clk, hlow] at hhigh
        split_ifs at hhigh with hp
        exact Prod.ext hp hhigh
      exact .inl (h.cs_low_of_clock_rise hop hu hrise)
  · obtain ⟨-, hclk, -⟩ := hostMove_wire hm
    exact absurd (hhigh.symm.trans (hclk.trans hlow)) (by simp)

/-- Settles O1: the fields of the reset state. -/
theorem resetHoldsTheStatedValues : Obligations.ResetHoldsTheStatedValues :=
  ⟨rfl, rfl, rfl, rfl, rfl, rfl, rfl, rfl, rfl, rfl, Memory.read_nil, rfl⟩

/-- Settles O2: no operation runs and nothing was written, so each clause is about empty lists. -/
theorem invariantHoldsAtReset : Obligations.InvariantHoldsAtReset where
  regWf := rfl
  regSpace := rfl
  varsWf := rfl
  received := rfl
  rxSel := rfl
  rxClk := rfl
  rxDin := rfl
  holding := fun hop => by cases hop
  upcRange := Nat.zero_le _
  upcBusy := fun hb => by cases hb
  idleCs := fun _ => rfl
  idleClk := fun _ => rfl
  csTrack := rfl
  clkTrack := rfl
  dinTrack := ⟨false, rfl⟩
  frameTrack := fun _ hu => absurd rfl hu

end Sys2Proof.Claims
end

section
/-! SUPPORT. Operations run to their end (R20, R81, R90, R92): a whole `SHIFT8`, a whole frame, and a frame cut after `k` pin writes. -/

namespace Sys2Proof.Machine

open Sys2Proof.Claims

/-! ### A whole operation -/

/-- An operation that starts the sequencer runs it to the end (R20). -/
theorem execWhole_of_load {i : Instr} {s : State} {k : OpKind} {a d : Byte} (h : exec i s = .next (s.load k a d)) :
    execWhole i s = .next
      { applyWrites (pwSeq k a d) s with
        op := k, ha := a, hb := d, upc := BitVec.ofNat 6 (pwSeq k a d).length, busy := false } := by
  rw [execWhole, h]
  exact finish_load k a d s

/-- An encoder operation is over when it is accepted (R18, R20). -/
theorem execWhole_of_setRes {i : Instr} {s : State} {b : Byte} (hb : s.busy = false) (h : exec i s = .next (s.setRes b)) :
    execWhole i s = .next (s.setRes b) := by
  rw [execWhole, h]
  exact finish_idle 50 _ hb

/-- The last bit of a `SHIFT8` stays on the data line (R22). -/
theorem levelAfter_din_pwShift8 (o : BitOrder) (b : Byte) (v : Level) :
    levelAfter .din v (pwShift8 o b) = match o with | .msb => b.getLsbD 0 | .lsb => b.getLsbD 7 := by
  cases o <;> rfl

theorem execWhole_shift8 (o : BitOrder) (b : Byte) {s : State} (h : s.busy = false) :
    execWhole (.shift8 o b) s = .next
      { s with
        clk := false, din := (match o with | .msb => b.getLsbD 0 | .lsb => b.getLsbD 7)
        busy := false, op := .shift8, ha := (match o with | .msb => 0x00#8 | .lsb => 0x01#8), hb := b, upc := 24#6
        trace := s.trace ++ shiftEvents o b
        reg := (observeAll (shiftEvents o b) (s.reg, s.rx)).1
        rx := (observeAll (shiftEvents o b) (s.reg, s.rx)).2 } := by
  have hseq : pwSeq .shift8 (holdingOfOrder o) b = pwShift8 o b := by simp [pwSeq]
  have hcs : levelAfter .cs s.cs (pwShift8 o b) = s.cs := levelAfter_of_forall_ne s.cs (pwShift8_ne_cs o b)
  rw [execWhole_of_load (exec_shift8_ready o b h), hseq, applyWrites_eq, levelAfter_din_pwShift8, hcs, map_eventOf_pwShift8]
  cases o <;> rfl

/-- A whole frame begun at rest (R90, R92). -/
theorem execWhole_wrreg (a d : Byte) {s : State} (h : AtRest s) : execWhole (.wrreg a d) s = .next (frameDone a d s) := by
  have hseq : pwSeq .wrreg a d = pwWrreg a d := rfl
  rw [execWhole_of_load (exec_wrreg_ready a d h.idle), hseq, applyWrites_eq, observe_frame a d s.reg s.rx h.rxSel h.rxClk,
    map_eventOf_pwWrreg]
  rfl

/-! ### The state a frame leaves -/

theorem atRest_frameDone (a d : Byte) (s : State) : AtRest (frameDone a d s) := ⟨rfl, rfl, rfl, rfl, rfl⟩

@[simp] theorem frameDone_trace (a d : Byte) (s : State) : (frameDone a d s).trace = s.trace ++ frameEvents a d := rfl
@[simp] theorem frameDone_reg (a d : Byte) (s : State) : (frameDone a d s).reg = s.reg.write a.toNat d := rfl

/-- A second write to an entry hides the first (R53). -/
theorem Memory.write_write_same (m : Memory) (a : Nat) (d e : Byte) : (m.write a d).write a e = m.write a e := by
  induction m with
  | nil => simp [Memory.write]
  | cons c m ih =>
    rcases lt_trichotomy a c.1 with hlt | heq | hgt
    · simp [Memory.write, hlt]
    · simp [Memory.write, heq]
    · simp [Memory.write, hgt.not_gt, hgt.ne', ih]

/-! ### A frame cut short -/

/-- What a receiver at rest makes of the first `k` pin writes of a frame: the register file changes with the fiftieth alone (R59), and
the bracket is open in between. -/
theorem observe_frame_prefix (a d : Byte) (m : Memory) {r : Rx} (hsel : r.sel = true) (hclk : r.clk = false) {k : Nat} (hk : k ≤ 50) :
    (observeAll (((pwWrreg a d).take k).map eventOf) (m, r)).1 = (if k < 50 then m else m.write a.toNat d) ∧
    (observeAll (((pwWrreg a d).take k).map eventOf) (m, r)).2.sel = decide (k = 0 ∨ k = 50) := by
  obtain ⟨hlevel, -, -⟩ := observeAll_levels ((pwWrreg a d).take k) (m, r)
  rcases Nat.eq_zero_or_pos k with rfl | hpos
  · simp [hsel]
  rcases Nat.lt_or_ge k 50 with hlt | hge
  · refine ⟨?_, ?_⟩
    · obtain ⟨j, rfl⟩ := Nat.exists_eq_add_of_le' hpos
      have hfall : observe (.write .cs false) (m, r) = (m, { r with sel := false, sh := 0#16, cnt := 0, bad := r.clk }) := by
        simp [observe, onCs, hsel]
      rw [take_pwWrreg a d (by omega), List.map_cons, observeAll_cons, eventOf, hfall, if_pos hlt]
      exact observeAll_reg_inside (fun w hw => framePulses_ne_cs a d w (List.mem_of_mem_take hw)) rfl
    · rw [hlevel, levelAfter_cs_take_pwWrreg a d _ hpos (by omega)]
      simp; omega
  · obtain rfl : k = 50 := by omega
    have hall : (pwWrreg a d).take 50 = pwWrreg a d := List.take_of_length_le (length_pwWrreg a d).le
    rw [hall, observe_frame a d m r hsel hclk]
    simp

/-- The first `k` pin writes of an operation just accepted: progress, `BUSY` and the target. -/
theorem exists_microSteps_load {i : Instr} {s : State} {op : OpKind} {a d : Byte} (h : exec i s = .next (s.load op a d)) {k : Nat}
    (hk : k ≤ (pwSeq op a d).length) :
    ∃ t u, exec i s = .next t ∧ microSteps k t = .next u ∧
      u.upc.toNat = k ∧ u.busy = decide (k < (pwSeq op a d).length) ∧
      u.trace = s.trace ++ ((pwSeq op a d).take k).map eventOf ∧
      (u.reg, u.rx) = observeAll (((pwSeq op a d).take k).map eventOf) (s.reg, s.rx) := by
  have hmax := length_pwSeq_le op a d
  have hpos : 0 < (pwSeq op a d).length := by rw [length_pwSeq]; cases op <;> decide
  refine ⟨_, _, h, microSteps_load k op a d s hk, ?_, ?_, by simp [applyWrites_eq], by simp [applyWrites_eq]⟩
  · simp only [BitVec.toNat_ofNat]
    omega
  · rcases Nat.eq_zero_or_pos k with rfl | hk0
    · simp [hpos]
    · simp [Nat.ne_of_gt hk0]

/-- The first `k` pin writes of a frame begun at rest. -/
theorem exists_microSteps_wrreg (a d : Byte) {s : State} (h : AtRest s) {k : Nat} (hk : k ≤ 50) :
    ∃ t u, exec (.wrreg a d) s = .next t ∧ microSteps k t = .next u ∧
      u.trace = s.trace ++ (frameEvents a d).take k ∧
      u.reg = (if k < 50 then s.reg else s.reg.write a.toNat d) ∧
      u.rx.sel = decide (k = 0 ∨ k = 50) := by
  obtain ⟨t, u, ht, hu, -, -, htrace, htarget⟩ := exists_microSteps_load (exec_wrreg_ready a d h.idle) hk
  obtain ⟨hreg, hsel⟩ := observe_frame_prefix a d s.reg h.rxSel h.rxClk hk
  refine ⟨t, u, ht, hu, ?_, (congrArg Prod.fst htarget).trans hreg, (congrArg (fun p => p.2.sel) htarget).trans hsel⟩
  rw [htrace, List.map_take]
  exact congrArg (fun es => s.trace ++ es.take k) (map_eventOf_pwWrreg a d)

/-! ### The bare `SHIFT8` -/

/-- A write outside the bracket leaves an unknown register file unknown. -/
theorem observe_unknown_outside {w : PinWrite} {r : Rx} (hw : w.1 ≠ .cs) :
    (observe (eventOf w) (Memory.allUnknown, r)).1 = Memory.allUnknown := by
  obtain ⟨p, v⟩ := w
  cases p with
  | din => rfl
  | clk => simp only [eventOf, observe, onClk]; split_ifs <;> rfl
  | cs => exact absurd rfl hw

theorem observeAll_unknown_outside {ws : List PinWrite} (r : Rx) (h : ∀ w ∈ ws, w.1 ≠ .cs) :
    (observeAll (ws.map eventOf) (Memory.allUnknown, r)).1 = Memory.allUnknown := by
  induction ws generalizing r with
  | nil => rfl
  | cons w ws ih =>
    rw [List.forall_mem_cons] at h
    obtain ⟨hw, hws⟩ := h
    have hsplit : observe (eventOf w) (Memory.allUnknown, r) = (Memory.allUnknown, (observe (eventOf w) (Memory.allUnknown, r)).2) :=
      Prod.ext (observe_unknown_outside hw) rfl
    rw [List.map_cons, observeAll_cons, hsplit]
    exact ih _ hws

/-- The first pulse of a `SHIFT8` outside the bracket makes every register unknown, and the others leave it so (R49, R85). -/
theorem observe_shiftEvents_reg (o : BitOrder) (b : Byte) (m : Memory) {r : Rx} (hsel : r.sel = true) (hclk : r.clk = false) :
    (observeAll (shiftEvents o b) (m, r)).1 = Memory.allUnknown := by
  obtain ⟨v, ws, hws⟩ : ∃ v ws, pwShift8 o b = (.din, v) :: (.clk, true) :: ws := ⟨_, _, rfl⟩
  have hne : ∀ w ∈ ws, w.1 ≠ .cs := fun w hw => pwShift8_ne_cs o b w (by simp [hws, hw])
  have hpulse : observe (.write .clk true) (observe (.write .din v) (m, r)) =
      (Memory.allUnknown, { (onDin v (m, r)).2 with clk := true }) := by
    simp [observe, onDin, onClk, hsel, hclk]
  rw [← map_eventOf_pwShift8, hws, List.map_cons, List.map_cons, observeAll_cons, observeAll_cons, eventOf, eventOf, hpulse]
  exact observeAll_unknown_outside _ hne

/-- A `SHIFT8` leaves the receiver's chip-select as it was and its clock low. -/
theorem observe_shiftEvents_levels (o : BitOrder) (b : Byte) (t : Target) :
    (observeAll (shiftEvents o b) t).2.sel = t.2.sel ∧ (observeAll (shiftEvents o b) t).2.clk = false := by
  obtain ⟨hsel, hclk, -⟩ := observeAll_levels (pwShift8 o b) t
  rw [map_eventOf_pwShift8] at hsel hclk
  exact ⟨hsel.trans (levelAfter_of_forall_ne _ (pwShift8_ne_cs o b)), hclk⟩

/-! ### The font's byte -/

/-- The low 7 bits of a byte, masked or not. -/
theorem setWidth_and_0x7F (x : Byte) : (x &&& 0x7F#8).setWidth 7 = x.setWidth 7 := by
  ext i hi
  interval_cases i <;> simp

/-- `ENCC`'s byte without its top bit is the font's entry (R120). -/
theorem charPattern_low_bits (x : Byte) : (charPattern x).setWidth 7 = romAscii (x.setWidth 7) := by
  rw [charPattern, setWidth_and_0x7F]
  ext i hi
  interval_cases i <;> simp

/-- Clearing the operand's top bit clears the byte's (R120). -/
theorem charPattern_and_low (x : Byte) : charPattern (x &&& 0x7F#8) = charPattern x &&& 0x7F#8 := by
  have hbit7 : (charPattern (x &&& 0x7F#8)).getLsbD 7 = false := by rw [charPattern_bit7]; simp
  have hlow : (charPattern (x &&& 0x7F#8)).setWidth 7 = (charPattern x).setWidth 7 := by
    rw [charPattern_low_bits, charPattern_low_bits, setWidth_and_0x7F]
  ext i hi
  have hsame (j : Nat) (hj : j < 7) : (charPattern (x &&& 0x7F#8)).getLsbD j = (charPattern x).getLsbD j := by
    simpa [hj] using congrArg (fun y => y.getLsbD j) hlow
  rcases Nat.lt_or_ge i 7 with hlt | hge
  · rw [BitVec.getElem_and, ← BitVec.getLsbD_eq_getElem, ← BitVec.getLsbD_eq_getElem, hsame i hlt]
    interval_cases i <;> simp
  · obtain rfl : i = 7 := by omega
    rw [BitVec.getElem_and, ← BitVec.getLsbD_eq_getElem, hbit7]
    simp

end Sys2Proof.Machine

namespace Sys2Proof.Claims

open Sys2Proof.Machine

/-- Settles O23: the closed form's 24 pin writes, applied one after the other. -/
theorem wholeShiftRunsToItsEnd : Obligations.WholeShiftRunsToItsEnd := fun o b _ h => execWhole_shift8 o b h

/-- Settles O24: the first pulse is outside the bracket, and nothing a `SHIFT8` writes makes a register known again. -/
theorem bareShiftMakesTheTargetUnknown : Obligations.BareShiftMakesTheTargetUnknown := by
  intro o b s h
  obtain ⟨hsel, hclk⟩ := observe_shiftEvents_levels o b (s.reg, s.rx)
  refine ⟨_, execWhole_shift8 o b h.idle, fun a => ?_, rfl, rfl, ⟨rfl, h.csHigh, rfl, hsel.trans h.rxSel, hclk⟩⟩
  simp only [observe_shiftEvents_reg o b s.reg h.rxSel h.rxClk, Memory.read_allUnknown]

/-- Settles O25: the 50 pin writes applied, and the receiver's reading of them. -/
theorem wholeFrameWritesItsRegister : Obligations.WholeFrameWritesItsRegister := fun a d _ h => execWhole_wrreg a d h

/-- Settles O26: a named frame is accepted as the `WRREG` at its address. -/
theorem namedFramesWriteTheirRegisters : Obligations.NamedFramesWriteTheirRegisters := by
  intro p hp d s h
  refine ⟨?_, Memory.read_write_same _ _ _, fun b hb => Memory.read_write_of_ne _ _ _ _ hb⟩
  rw [execWhole, exec_namedFrames d p hp]
  exact execWhole_wrreg p.2 d h

/-- Settles O27: `frameDone` writes one register and no field of the host. -/
theorem frameLeavesOtherRegistersAlone : Obligations.FrameLeavesOtherRegistersAlone := fun a d s h =>
  ⟨_, execWhole_wrreg a d h, Memory.read_write_same _ _ _, fun _ hb => Memory.read_write_of_ne _ _ _ _ hb, rfl, rfl, rfl, rfl,
    atRest_frameDone a d s⟩

/-- Settles O28: the receiver's reading of the first pin writes of a frame, and its rule for the end of any bracket. -/
theorem frameTakesEffectAllAtOnce : Obligations.FrameTakesEffectAllAtOnce := by
  refine ⟨fun a d s k h hk => ?_, fun s hsel => ?_⟩
  · obtain ⟨t, u, ht, hu, -, hreg, -⟩ := exists_microSteps_wrreg a d h hk
    exact ⟨t, u, ht, hu, hreg⟩
  · have hdata : s.rx.data = s.rx.sh.setWidth 8 := (BitVec.setWidth_eq_extractLsb' (by decide)).symm
    have haddress : s.rx.address.toNat = (s.rx.sh >>> 8).toNat := by
      have hlt := s.rx.sh.isLt
      simp only [Rx.address, BitVec.extractLsb'_toNat, BitVec.toNat_ushiftRight, Nat.shiftRight_eq_div_pow]
      omega
    simp only [pinWrite_reg, observe, onCs, hsel, memWrite, hdata, haddress, Rx.wellFormedFrame, Bool.and_eq_true, decide_eq_true_eq,
      Bool.not_eq_true', and_assoc, if_true]
    rfl

/-- Settles O29: the second write to an entry hides the first. -/
theorem lastFrameToAnAddressWins : Obligations.LastFrameToAnAddressWins := by
  intro a d e s h
  refine ⟨_, _, _, execWhole_wrreg a d h, execWhole_wrreg a e (atRest_frameDone a d s), execWhole_wrreg a e h, ?_, ?_, by simp⟩
  · simp [Memory.write_write_same]
  · simp

/-- Settles O4: the bracket is open after 1 to 49 pin writes, and a reset then makes every register unknown. -/
theorem resetInsideAFrameMakesTheTargetUnknown : Obligations.ResetInsideAFrameMakesTheTargetUnknown := by
  intro a d s k h hk
  obtain ⟨t, u, ht, hu, htrace, hreg, hsel⟩ := exists_microSteps_wrreg a d h hk
  refine ⟨t, u, ht, hu, by rw [resetOp_trace, htrace], ?_, rfl, ⟨rfl, rfl, rfl, rfl, rfl⟩⟩
  rw [resetOp_reg, onRst, hreg, hsel]
  rcases Nat.eq_zero_or_pos k with rfl | hpos
  · simp
  rcases Nat.lt_or_ge k 50 with hlt | hge
  · simp [hlt, Nat.ne_of_gt hpos, Nat.ne_of_lt hlt, Memory.allUnknown]
  · obtain rfl : k = 50 := by omega
    simp

/-- Settles O33: `k` steps of the sequencer are `k` elements of the sequence. -/
theorem progressCounterCountsThePinWrites : Obligations.ProgressCounterCountsThePinWrites := by
  refine fun s k h => ⟨fun o b hk => ?_, fun a d hk => ?_⟩
  · obtain ⟨t, u, ht, hu, hupc, hbusy, htrace, -⟩ := exists_microSteps_load (exec_shift8_ready o b h) hk
    have hseq : pwSeq .shift8 (holdingOfOrder o) b = pwShift8 o b := by simp [pwSeq]
    refine ⟨t, u, ht, hu, hupc, hbusy, ?_⟩
    rw [htrace, List.map_take, hseq, map_eventOf_pwShift8]
  · obtain ⟨t, u, ht, hu, hupc, hbusy, htrace, -⟩ := exists_microSteps_load (exec_wrreg_ready a d h) hk
    refine ⟨t, u, ht, hu, hupc, hbusy, ?_⟩
    rw [htrace, List.map_take]
    exact congrArg (fun es => s.trace ++ es.take k) (map_eventOf_pwWrreg a d)

/-- Settles O32: the events are the sequence of the operation's own operands, or none. -/
theorem operationsRememberNothing : Obligations.OperationsRememberNothing := by
  have hpins {i : Instr} {k : OpKind} {a d : Byte} (he : exec i = issuePinOp k a d) (s : State) (h : s.busy = false) :
      ∃ t, execWhole i s = .next t ∧ t.trace = s.trace ++ (pwSeq k a d).map eventOf ∧ t.busy = false :=
    ⟨_, execWhole_of_load ((congrFun he s).trans (issuePinOp_ready _ _ _ s h)), by simp [applyWrites_eq], rfl⟩
  intro i
  rcases exec_eq_issue i with ⟨o, b, -, he⟩ | ⟨a, d, he⟩ | ⟨b, -, he⟩
  · exact ⟨_, hpins he⟩
  · exact ⟨_, hpins he⟩
  · refine ⟨[], fun s h => ⟨_, execWhole_of_setRes h ((congrFun he s).trans (issueEncode_ready b s h)), by simp, h⟩⟩

/-- Settles O17: the operand's top bit and its low 7 bits go separate ways through `charPattern`. -/
theorem enccKeepsTheTopBitAndLooksUpTheRest : Obligations.EnccKeepsTheTopBitAndLooksUpTheRest := fun x _ h =>
  ⟨_, _, _, exec_encc_ready h rfl, exec_encc_ready h rfl, exec_encc_ready h rfl, charPattern_bit7 x, charPattern_low_bits x,
    charPattern_or_point x, charPattern_and_low x⟩

end Sys2Proof.Claims
end

section
/-! SUPPORT. Decimal strings (R131, D15). `decNat n` is the list of `n`'s digits in base 10, so its length, its first digit and its value are
the library's facts about `Nat.digits`. -/

namespace Sys2Proof.Machine

open Sys2Proof.Claims

/-- The byte of a decimal digit, `0x30 + c`. -/
def digitByte (c : Nat) : Byte := BitVec.ofNat 8 (0x30 + c)

theorem toNat_digitByte {c : Nat} (h : c < 10) : (digitByte c).toNat = 0x30 + c := by
  rw [digitByte, BitVec.toNat_ofNat]
  omega

/-- With enough fuel `decDigits` puts the digits of a positive number before `acc`, most significant first. -/
theorem decDigits_eq (fuel n : Nat) (acc : List Byte) (hpos : 0 < n) (hfuel : n < 2 ^ fuel) :
    decDigits fuel n acc = ((Nat.digits 10 n).map digitByte).reverse ++ acc := by
  induction fuel generalizing n acc with
  | zero => omega
  | succ fuel ih =>
    rw [decDigits, Nat.digits_def' (by decide) hpos]
    by_cases hlast : n / 10 = 0
    · simp [hlast, digitByte]
    · rw [if_neg hlast, ih (n / 10) _ (by omega) (by omega)]
      simp [digitByte]

theorem decNat_eq {n : Nat} (hpos : 0 < n) : decNat n = ((Nat.digits 10 n).map digitByte).reverse := by
  rw [decNat, decDigits_eq _ n [] hpos Nat.lt_log2_self, List.append_nil]

theorem decNat_zero : decNat 0 = [0x30#8] := by decide

/-- `decNat n` has at most `k` characters exactly below `10 ^ k`. -/
theorem length_decNat_le_iff (n : Nat) {k : Nat} (hk : 1 ≤ k) : (decNat n).length ≤ k ↔ n < 10 ^ k := by
  rcases Nat.eq_zero_or_pos n with rfl | hpos
  · simpa [decNat_zero] using hk
  · rw [decNat_eq hpos, List.length_reverse, List.length_map, Nat.digits_length_le_iff (by decide)]

/-- The first character of a positive number's string is its leading digit, which is not 0. -/
theorem head?_decNat {n : Nat} (hpos : 0 < n) : (decNat n).head? ≠ none ∧ (decNat n).head? ≠ some 0x30#8 := by
  have hne : Nat.digits 10 n ≠ [] := Nat.digits_ne_nil_iff_ne_zero.mpr hpos.ne'
  have hlead := Nat.getLast_digit_ne_zero 10 hpos.ne'
  have hlt : (Nat.digits 10 n).getLast hne < 10 := Nat.digits_lt_base (by decide) (List.getLast_mem hne)
  have hhead : (decNat n).head? = some (digitByte ((Nat.digits 10 n).getLast hne)) := by
    rw [decNat_eq hpos, List.head?_reverse, List.getLast?_map, List.getLast?_eq_some_getLast hne]
    rfl
  rw [hhead]
  refine ⟨by simp, fun h => hlead ?_⟩
  have hbyte := congrArg BitVec.toNat (Option.some_inj.mp h)
  rw [toNat_digitByte hlt] at hbyte
  simpa using hbyte

/-- Every character of a number's string is a digit character. -/
theorem range_of_mem_decNat {n : Nat} {x : Byte} (h : x ∈ decNat n) : 0x30 ≤ x.toNat ∧ x.toNat ≤ 0x39 := by
  rcases Nat.eq_zero_or_pos n with rfl | hpos
  · rw [decNat_zero, List.mem_singleton] at h
    subst h
    decide
  · rw [decNat_eq hpos, List.mem_reverse, List.mem_map] at h
    obtain ⟨c, hc, rfl⟩ := h
    have hlt := Nat.digits_lt_base (by decide) hc
    rw [toNat_digitByte hlt]
    omega

/-- The value of a decimal string, read most significant digit first. -/
def decValue (v : Nat) (s : List Byte) : Nat := s.foldl (fun v x => 10 * v + (x.toNat - 0x30)) v

theorem decValue_digits (ds : List Nat) (h : ∀ c ∈ ds, c < 10) :
    decValue 0 (ds.map digitByte).reverse = Nat.ofDigits 10 ds := by
  induction ds with
  | nil => rfl
  | cons c ds ih =>
    rw [List.forall_mem_cons] at h
    obtain ⟨hc, hds⟩ := h
    have hrest := ih hds
    rw [decValue] at hrest ⊢
    rw [List.map_cons, List.reverse_cons, List.foldl_append, hrest, Nat.ofDigits_cons]
    simp [toNat_digitByte hc, Nat.add_comm]

theorem decValue_decNat (n : Nat) : decValue 0 (decNat n) = n := by
  rcases Nat.eq_zero_or_pos n with rfl | hpos
  · rw [decNat_zero]
    rfl
  · rw [decNat_eq hpos, decValue_digits _ fun c hc => Nat.digits_lt_base (by decide) hc, Nat.ofDigits_digits]

theorem dec_of_nonneg {n : Int} (h : 0 ≤ n) : dec n = decNat n.natAbs := if_neg (by omega)

theorem dec_of_neg {n : Int} (h : n < 0) : dec n = 0x2D#8 :: decNat n.natAbs := if_pos h

/-- The precondition of `COORD` as the model tests it is the stated range (R131). -/
theorem length_dec_le_seven_iff (n : Int) : (dec n).length ≤ 7 ↔ -999999 ≤ n ∧ n ≤ 9999999 := by
  rcases lt_or_ge n 0 with hneg | hnonneg
  · rw [dec_of_neg hneg, List.length_cons, Nat.succ_le_succ_iff, length_decNat_le_iff _ (by decide)]
    omega
  · rw [dec_of_nonneg hnonneg, length_decNat_le_iff _ (by decide)]
    omega

end Sys2Proof.Machine

namespace Sys2Proof.Claims

open Sys2Proof.Machine

/-- Settles O48: the sign takes one character, and `k` digits reach exactly to `10 ^ k`. -/
theorem sevenCharactersFitExactlyTheStatedRange : Obligations.SevenCharactersFitExactlyTheStatedRange := length_dec_le_seven_iff

/-- Settles O55: the digits in base 10, most significant first. -/
theorem decIsThePlainDecimalString : Obligations.DecIsThePlainDecimalString := by
  refine fun n => ⟨fun h => ?neg, fun h => ?zero, fun h => ?pos, fun h => ⟨?range, ?value⟩⟩
  case neg => rw [dec_of_neg h, dec_of_nonneg (by omega), Int.natAbs_neg]
  case zero => rw [h]; exact decNat_zero
  case pos => rw [dec_of_nonneg h.le]; exact head?_decNat (by omega)
  case range => rw [dec_of_nonneg h]; exact fun x hx => range_of_mem_decNat hx
  case value =>
    rw [dec_of_nonneg h]
    exact (decValue_decNat n.natAbs).trans (by omega)

end Sys2Proof.Claims
end

section
/-! SUPPORT. The target's registers and what a digit shows (R23 to R29, R50, R135). The map is a bijection between the registers and thirteen
addresses, so a frame to one of them gives its register the byte and leaves the meaning of every other. -/

namespace Sys2Proof.Machine

open Sys2Proof.Claims

/-! ### The register map -/

/-- A digit's address is its number plus one (R24). -/
theorem toNat_addr_digit (n : Fin 8) : (TargetReg.digit n).addr.toNat = n.val + 1 := by
  rw [TargetReg.addr, BitVec.toNat_ofNat]
  omega

/-- The map in both directions: a register stands at an address exactly if it is the address's own (R23). -/
theorem ofAddr_eq_some_iff (a : Byte) (r : TargetReg) : TargetReg.ofAddr a = some r ↔ r.addr = a := by
  constructor
  · intro h
    unfold TargetReg.ofAddr at h
    split_ifs at h with h18 h9 hA hB hC hF <;> cases h
    · refine BitVec.eq_of_toNat_eq ?_
      rw [toNat_addr_digit]
      exact Nat.sub_add_cancel h18.1
    · exact h9.symm
    · exact hA.symm
    · exact hB.symm
    · exact hC.symm
    · exact hF.symm
  · rintro rfl
    cases r with
    | digit n =>
      have hn := toNat_addr_digit n
      rw [TargetReg.ofAddr, dif_pos (by omega)]
      simp [hn]
    | decodeMode | intensity | scanLimit | shutdown | displayTest => rfl

theorem mem_registerTable (r : TargetReg) : (r, r.addr) ∈ registerTable := by
  cases r with
  | digit n => fin_cases n <;> simp [registerTable, TargetReg.addr]
  | decodeMode | intensity | scanLimit | shutdown | displayTest => simp [registerTable, TargetReg.addr]

theorem addr_of_mem_registerTable : ∀ p ∈ registerTable, p.1.addr = p.2 := by
  simp [registerTable, TargetReg.addr]

/-! ### What a register means after a frame -/

/-- A frame gives its own register the byte, where the register lists it. -/
theorem meaningful_frameDone_same {a : Byte} (d : Byte) (s : State) {r : TargetReg} (h : r.addr = a) :
    (frameDone a d s).meaningful r = if r.listed d then some d else none := by
  subst h
  simp [State.meaningful, State.target, Option.filter]

/-- Every other register keeps its meaning. -/
theorem meaningful_frameDone_other {a : Byte} (d : Byte) (s : State) {r : TargetReg} (h : r.addr ≠ a) :
    (frameDone a d s).meaningful r = s.meaningful r := by
  have hne : r.addr.toNat ≠ a.toNat := fun he => h (BitVec.eq_of_toNat_eq he)
  simp [State.meaningful, State.target, Memory.read_write_of_ne _ _ _ _ hne]

/-- The frames the spec gives an effect are those of a listed value to a register of the map. -/
theorem documented_wrreg_iff (a d : Byte) : documented (.wrreg a d) = true ↔ ∃ r : TargetReg, r.addr = a ∧ r.listed d = true := by
  simp only [documented, ← ofAddr_eq_some_iff]
  cases TargetReg.ofAddr a <;> simp

/-- A register with a listed byte, in words of the map: one case for the digits and one for each of the five others. -/
theorem exists_addr_listed_iff (a d : Byte) :
    (∃ r : TargetReg, r.addr = a ∧ r.listed d = true) ↔
      (1 ≤ a.toNat ∧ a.toNat ≤ 8) ∨ (a = 0x09#8 ∧ (d = 0x00#8 ∨ d = 0xFF#8)) ∨ (a = 0x0A#8 ∧ d.toNat ≤ 0x0F) ∨
        (a = 0x0B#8 ∧ d.toNat ≤ 0x07) ∨ (a = 0x0C#8 ∧ (d = 0x00#8 ∨ d = 0x01#8)) ∨ (a = 0x0F#8 ∧ (d = 0x00#8 ∨ d = 0x01#8)) := by
  constructor
  · rintro ⟨r, rfl, hd⟩
    cases r with
    | digit n =>
      have hn := toNat_addr_digit n
      exact .inl ⟨by omega, by omega⟩
    | decodeMode | intensity | scanLimit | shutdown | displayTest => simpa [TargetReg.addr, TargetReg.listed] using hd
  · rintro (⟨h1, h8⟩ | ⟨rfl, hd⟩ | ⟨rfl, hd⟩ | ⟨rfl, hd⟩ | ⟨rfl, hd⟩ | ⟨rfl, hd⟩)
    · refine ⟨.digit ⟨a.toNat - 1, by omega⟩, BitVec.eq_of_toNat_eq ?_, rfl⟩
      rw [toNat_addr_digit]
      exact Nat.sub_add_cancel h1
    · exact ⟨.decodeMode, rfl, by simpa [TargetReg.listed] using hd⟩
    · exact ⟨.intensity, rfl, by simpa [TargetReg.listed] using hd⟩
    · exact ⟨.scanLimit, rfl, by simpa [TargetReg.listed] using hd⟩
    · exact ⟨.shutdown, rfl, by simpa [TargetReg.listed] using hd⟩
    · exact ⟨.displayTest, rfl, by simpa [TargetReg.listed] using hd⟩

/-- The meaning of an on-off register after a frame of its own. -/
theorem map_isOne_listed (d : Byte) :
    (if d == 0x00#8 || d == 0x01#8 then some d else none).map (fun v => v == 0x01#8) =
      if d = 0x00#8 then some false else if d = 0x01#8 then some true else none := by
  by_cases h0 : d = 0x00#8
  · subst h0; rfl
  · by_cases h1 : d = 0x01#8 <;> simp [h0, h1]

/-! ### A configured target -/

/-- Where a register holds a listed byte, that is its meaning. -/
theorem meaningful_of_target {s : State} {r : TargetReg} {v : Byte} (h : s.target r = some v) (hl : r.listed v = true) :
    s.meaningful r = some v := by
  rw [State.meaningful, h, Option.filter_some, if_pos hl]

/-- The bit that lights a segment is the one an injective map sends there. -/
theorem find?_segment {m : Fin 7 → Segment} (hm : Function.Injective m) (i : Fin 7) :
    ((List.finRange 7).find? fun j => decide (m j = m i)) = some i := by
  cases hfind : (List.finRange 7).find? fun j => decide (m j = m i) with
  | none => simpa using List.find?_eq_none.mp hfind i (List.mem_finRange i)
  | some j =>
    have hji : m j = m i := by simpa using List.find?_some hfind
    rw [hm hji]

/-! ### The digits of TIME and DATE -/

/-- Both digits of a field up to 99 are digits (R66, R135). -/
theorem le_nine_of_mem_fieldDigits {v : Nat} {point : Bool} {p : Nat × Bool} (hv : v ≤ 99) (h : p ∈ fieldDigits v point) : p.1 ≤ 9 := by
  simp only [fieldDigits, tens, units, List.mem_cons, List.not_mem_nil, or_false] at h
  rcases h with rfl | rfl <;> simp only <;> omega

/-- The four digits of a year up to 9999 are digits (D14, R135). -/
theorem le_nine_of_mem_yearDigits {y : Nat} {p : Nat × Bool} (hy : y ≤ 9999) (h : p ∈ yearDigits y) : p.1 ≤ 9 := by
  simp only [yearDigits, List.mem_cons, List.not_mem_nil, or_false] at h
  rcases h with rfl | rfl | rfl | rfl <;> simp only <;> omega

/-- Position `k` from the left has address `9 - k` (R50). -/
theorem toNat_addrOfPosition {k : Nat} (h1 : 1 ≤ k) (h8 : k ≤ 8) : (addrOfPosition k).toNat = 9 - k := by
  rw [addrOfPosition, BitVec.toNat_ofNat]
  omega

end Sys2Proof.Machine

namespace Sys2Proof.Claims

open Sys2Proof.Machine

/-- Settles O52: the map is a bijection between the registers and the thirteen addresses of the table. -/
theorem registerMapIsExact : Obligations.RegisterMapIsExact := by
  refine ⟨fun p hp => ?_, fun r => List.mem_map_of_mem (f := Prod.fst) (mem_registerTable r), fun a => ?_, fun v => ?_⟩
  · have haddr := addr_of_mem_registerTable p hp
    exact ⟨haddr, (ofAddr_eq_some_iff _ _).mpr haddr⟩
  · rw [Option.eq_none_iff_forall_ne_some]
    simp only [ne_eq, ofAddr_eq_some_iff]
    constructor
    · intro h hmem
      obtain ⟨p, hp, rfl⟩ := List.mem_map.mp hmem
      exact h p.1 (addr_of_mem_registerTable p hp)
    · rintro h r rfl
      exact h (List.mem_map_of_mem (f := Prod.snd) (mem_registerTable r))
  · simp [TargetReg.listed]

/-- Settles O31: the frame's own register takes the byte where its list has it, and no other register is touched. -/
theorem meaningFollowsTheRegisterMap : Obligations.MeaningFollowsTheRegisterMap := by
  intro a d s h
  refine ⟨_, execWhole_wrreg a d h, rfl, fun n hn => ?digit, fun ha => ?decode, fun ha => ?bright, fun ha => ?scan, fun ha => ?shutdown,
    fun ha => ?test, fun p hp hne => ?other, (documented_wrreg_iff a d).trans (exists_addr_listed_iff a d)⟩
  case digit =>
    have haddr : (TargetReg.digit n).addr = a := BitVec.eq_of_toNat_eq ((toNat_addr_digit n).trans hn.symm)
    exact meaningful_frameDone_same d s haddr
  case decode =>
    rw [State.decodeMode, meaningful_frameDone_same d s (r := .decodeMode) ha.symm]
    by_cases h0 : d = 0x00#8
    · simp [h0, TargetReg.listed]
    · by_cases hF : d = 0xFF#8 <;> simp [h0, hF, TargetReg.listed]
  case bright =>
    rw [State.brightness, meaningful_frameDone_same d s (r := .intensity) ha.symm]
    by_cases hd : d.toNat ≤ 0x0F <;> simp [hd, TargetReg.listed]
  case scan =>
    rw [State.digitsDriven, meaningful_frameDone_same d s (r := .scanLimit) ha.symm]
    by_cases hd : d.toNat ≤ 0x07 <;> simp [hd, TargetReg.listed]
  case shutdown =>
    rw [State.normalOperation, meaningful_frameDone_same d s (r := .shutdown) ha.symm]
    exact map_isOne_listed d
  case test =>
    rw [State.displayTestOn, meaningful_frameDone_same d s (r := .displayTest) ha.symm]
    exact map_isOne_listed d
  case other =>
    exact meaningful_frameDone_other d s (by rwa [addr_of_mem_registerTable p hp])

/-- Settles O53: each configuration register holds a listed byte, and an injective map finds the bit of a segment. -/
theorem configuredTargetShowsRawSegments : Obligations.ConfiguredTargetShowsRawSegments := by
  intro s h
  have hmode : s.decodeMode = some .noDecode := by rw [State.decodeMode, meaningful_of_target h.noDecode rfl]; rfl
  have hdigits : s.digitsDriven = some 8 := by rw [State.digitsDriven, meaningful_of_target h.eightDigits rfl]; rfl
  have hbright : s.brightness = some 15 := by rw [State.brightness, meaningful_of_target h.maximum rfl]; rfl
  have hnormal : s.normalOperation = some true := by rw [State.normalOperation, meaningful_of_target h.normal rfl]; rfl
  have htest : s.displayTestOn = some false := by rw [State.displayTestOn, meaningful_of_target h.testOff rfl]; rfl
  refine ⟨hmode, hdigits, hbright, hnormal, htest, by rw [State.readingApplies, hnormal, htest, hdigits]; rfl, fun n v hv => ?_⟩
  have hbit (i : Fin 7) : s.patternBit n i = some (v.getLsbD i.val) := by rw [State.patternBit, if_pos hmode, hv]; rfl
  have hlit (m : Fin 7 → Segment) (hm : Function.Bijective m) (i : Fin 7) :
      s.segmentLitBy m n (m i) = some (v.getLsbD i.val) := by
    rw [State.segmentLitBy, find?_segment hm.injective, Option.bind_some, hbit]
  exact ⟨by rw [State.pointLit, hv]; rfl, hbit, hlit, hlit Config.segMap⟩

/-- Settles O50: field by field. -/
theorem documentedRangesStayInsideTheDigitFont : Obligations.DocumentedRangesStayInsideTheDigitFont := by
  refine ⟨fun h m s x hdoc p hp => ?_, fun day month year hdoc p hp => ?_⟩
  · obtain ⟨hh, hm, hs, hx⟩ := of_decide_eq_true hdoc
    simp only [timeDigits, List.mem_append] at hp
    rcases hp with ((hp | hp) | hp) | hp
    · exact le_nine_of_mem_fieldDigits hh hp
    · exact le_nine_of_mem_fieldDigits hm hp
    · exact le_nine_of_mem_fieldDigits hs hp
    · exact le_nine_of_mem_fieldDigits hx hp
  · obtain ⟨hday, hmonth, hyear⟩ := of_decide_eq_true hdoc
    simp only [dateDigits, List.mem_append] at hp
    rcases hp with (hp | hp) | hp
    · exact le_nine_of_mem_fieldDigits hday hp
    · exact le_nine_of_mem_fieldDigits hmonth hp
    · exact le_nine_of_mem_yearDigits hyear hp

/-- Settles O51: the address of a position, and `DISPLAY`'s expansion read off. -/
theorem positionsMapToAddresses : Obligations.PositionsMapToAddresses := by
  refine ⟨fun k h1 h8 => toNat_addrOfPosition h1 h8, rfl, rfl, fun n => ⟨toNat_addr_digit n, BitVec.eq_of_toNat_eq ?_⟩,
    fun _ _ _ _ _ _ _ _ => rfl⟩
  rw [toNat_addrOfPosition (by omega) (by omega), toNat_addr_digit]
  omega

end Sys2Proof.Claims
end

section
/-! SUPPORT. What the host's actions do one after the other, no reset on its way: a presented frame takes 51 steps, and runs are put together
with the frames they sent (R53, R73, R179). -/

namespace Sys2Proof.Machine

open Sys2Proof.Claims

/-! ### Many writes to a byte store -/

theorem read_foldl_write_of_forall_ne {α : Type} {key : α → Nat} {val : α → Byte} {l : List α} {a : Nat} (m : Memory)
    (h : ∀ x ∈ l, key x ≠ a) : (l.foldl (fun m x => m.write (key x) (val x)) m).read a = m.read a := by
  induction l generalizing m with
  | nil => rfl
  | cons x l ih =>
    rw [List.forall_mem_cons] at h
    obtain ⟨hx, hl⟩ := h
    rw [List.foldl_cons, ih _ hl, Memory.read_write_of_ne _ _ _ _ hx.symm]

/-- Writes to different entries are all there afterwards. -/
theorem read_foldl_write_of_mem {α : Type} {key : α → Nat} {val : α → Byte} {l : List α} {x : α} (m : Memory)
    (hnodup : (l.map key).Nodup) (hx : x ∈ l) : (l.foldl (fun m x => m.write (key x) (val x)) m).read (key x) = some (val x) := by
  induction l generalizing m with
  | nil => cases hx
  | cons y l ih =>
    rw [List.map_cons, List.nodup_cons] at hnodup
    obtain ⟨hy, hl⟩ := hnodup
    rw [List.foldl_cons]
    rcases List.mem_cons.mp hx with rfl | hmem
    · have hne : ∀ z ∈ l, key z ≠ key x := fun z hz he => hy (he ▸ List.mem_map_of_mem hz)
      rw [read_foldl_write_of_forall_ne _ hne, Memory.read_write_same]
    · exact ih _ hl hmem

/-! ### Frames sent, one run after the other -/

theorem framesSent_nil {s t : State} (htrace : t.trace = s.trace) (hreg : t.reg = s.reg) (h : AtRest t) : FramesSent [] s t :=
  ⟨by simp [htrace], hreg, h⟩

theorem framesSent_append {l l' : List (Byte × Byte)} {s t u : State} (h : FramesSent l s t) (h' : FramesSent l' t u) :
    FramesSent (l ++ l') s u := by
  obtain ⟨htrace, hreg, -⟩ := h
  obtain ⟨htrace', hreg', hrest⟩ := h'
  refine ⟨?_, ?_, hrest⟩
  · rw [htrace', htrace, List.flatMap_append, List.append_assoc]
  · rw [hreg', hreg, List.foldl_append]

/-- A run of `n` steps from `s` to `t` that sent exactly these frames, with no reset on its way. -/
structure Performs (n : Nat) (l : List (Byte × Byte)) (s t : State) : Prop where
  runs : run n s = .next t
  sent : FramesSent l s t
  noReset : t.resets = []

theorem Performs.atRest {n : Nat} {l : List (Byte × Byte)} {s t : State} (h : Performs n l s t) : AtRest t := h.sent.2.2

theorem Performs.refl {s : State} (h : AtRest s) (hr : s.resets = []) : Performs 0 [] s s := ⟨rfl, framesSent_nil rfl rfl h, hr⟩

theorem Performs.trans {m n : Nat} {l l' : List (Byte × Byte)} {s t u : State} (h : Performs m l s t) (h' : Performs n l' t u) :
    Performs (m + n) (l ++ l') s u :=
  ⟨(run_add m n s t h.runs).trans h'.runs, framesSent_append h.sent h'.sent, h'.noReset⟩

/-- The same run, its steps or its frames counted in another way. -/
theorem Performs.of_eq {m n : Nat} {l l' : List (Byte × Byte)} {s t : State} (h : Performs m l s t) (hn : m = n) (hl : l = l') :
    Performs n l' s t := hn ▸ hl ▸ h

/-- A step that sends nothing. -/
theorem performs_silent {s t : State} (h : step s = .next t) (htrace : t.trace = s.trace) (hreg : t.reg = s.reg) (hrest : AtRest t)
    (hr : t.resets = []) : Performs 1 [] s t :=
  ⟨run_succ_of_step 0 s t h, framesSent_nil htrace hreg hrest, hr⟩

/-! ### Steps with no reset on its way -/

theorem withResets_tick_of_nil {s : State} (hr : s.resets = []) : s.withResets (tickResets s.resets) = s := by
  obtain ⟨_, _, _, _, _, _, _, _, _, _, _, _, _, _, resets⟩ := s
  cases (show resets = [] from hr)
  rfl

theorem step_idle_of_nil {s : State} (hr : s.resets = []) (hb : s.busy = false) : step s = hostMove s := by
  rw [step_idle s (by rw [hr]; rfl) hb, withResets_tick_of_nil hr]

theorem step_busy_of_nil {s : State} (hr : s.resets = []) (hb : s.busy = true) : step s = microStep s := by
  rw [step_busy s (by rw [hr]; rfl) hb, withResets_tick_of_nil hr]

/-- While an operation runs, a run is steps of the micro-sequencer. -/
theorem run_of_microSteps {n : Nat} {s t : State} (h : microSteps n s = .next t) (hr : s.resets = [])
    (hbusy : ∀ k < n, ∀ u, microSteps k s = .next u → u.busy = true) : run n s = .next t := by
  induction n generalizing s with
  | zero => exact h
  | succ n ih =>
    cases hs : microStep s with
    | fault f => simp [microSteps, hs] at h
    | refused r => simp [microSteps, hs] at h
    | next u =>
      have hstep : step s = .next u := (step_busy_of_nil hr (hbusy 0 (by omega) s rfl)).trans hs
      have hru : u.resets = [] := by
        obtain ⟨w, -, rfl⟩ := microStep_next s u hs
        simpa using hr
      rw [microSteps, hs] at h
      rw [run_succ_of_step n s u hstep]
      refine ih h hru fun k hk v hv => hbusy (k + 1) (by omega) v ?_
      rw [microSteps, hs]
      exact hv

/-- A frame that a step has accepted goes out in the next 50 (R19, R91). -/
theorem performs_frame {a d : Byte} {s : State} {rest : List HostAct} (h : AtRest s) (hr : s.resets = [])
    (hstep : step s = .next ((s.withHost rest).load .wrreg a d)) :
    Performs 51 [(a, d)] s ((frameDone a d s).withHost rest) := by
  have hfifty : microSteps 50 ((s.withHost rest).load .wrreg a d) = .next ((frameDone a d s).withHost rest) := by
    have htake : (pwSeq .wrreg a d).take 50 = pwWrreg a d := List.take_of_length_le (length_pwWrreg a d).le
    have htarget : observeAll ((pwWrreg a d).map eventOf) ((s.withHost rest).reg, (s.withHost rest).rx) =
        ((frameDone a d s).reg, (frameDone a d s).rx) := observe_frame a d s.reg s.rx h.rxSel h.rxClk
    rw [microSteps_load 50 .wrreg a d _ le_rfl, htake, applyWrites_eq, htarget, map_eventOf_pwWrreg]
    rfl
  refine ⟨?_, ⟨by simp, by simp, ⟨rfl, rfl, rfl, rfl, rfl⟩⟩, hr⟩
  rw [run_succ_of_step 50 s _ hstep]
  refine run_of_microSteps hfifty hr fun k hk u hu => ?_
  rw [microSteps_load k .wrreg a d _ hk.le] at hu
  cases hu
  have hlen : (pwSeq .wrreg a d).length = 50 := rfl
  simp [hlen, hk]

/-! ### Host actions that present a frame -/

/-- With these variables of the host the action presents the frame `p`. -/
def Presents (vars : Memory) (act : HostAct) (p : Byte × Byte) : Prop :=
  ∀ (s : State) (rest : List HostAct), s.vars = vars → s.busy = false → s.resets = [] → s.host = act :: rest →
    step s = .next ((s.withHost rest).load .wrreg p.1 p.2)

theorem presents_presentFrame (vars : Memory) (a d : Byte) : Presents vars (presentFrame a d) (a, d) := by
  intro s rest _ hb hr hh
  rw [step_idle_of_nil hr hb, hostMove, hh]
  exact (presentWord_encode_wrreg a d _).trans (exec_wrreg_ready a d hb)

/-- A `WRREG` whose operands stand for bytes is accepted as the frame of those bytes (R72). -/
theorem step_presentWrreg {a d : WrregOperand} {x y : Byte} {s : State} {rest : List HostAct} (hb : s.busy = false) (hr : s.resets = [])
    (hh : s.host = .presentWrreg a d :: rest) (ha : s.operand a = some x) (hd : s.operand d = some y) :
    step s = .next ((s.withHost rest).load .wrreg x y) := by
  rw [step_idle_of_nil hr hb, hostMove, hh]
  simp only [ha, hd, presentWrreg_bytes, presentWord_encode_wrreg]
  exact exec_wrreg_ready x y hb

theorem presents_presentWrreg_var {vars : Memory} (a : Byte) {v : Nat} {y : Byte} (hv : vars.read v = some y) :
    Presents vars (.presentWrreg (.byte a) (.var v)) (a, y) := fun s rest hvars hb hr hh =>
  step_presentWrreg hb hr hh (operand_byte s a) (by rw [operand_var, hvars, hv])

/-- A list of actions that each present a frame sends the frames in order (R53, R170). -/
theorem exists_performs_frames {l : List (HostAct × Byte × Byte)} {rest : List HostAct} {s : State} (h : AtRest s) (hr : s.resets = [])
    (hl : ∀ x ∈ l, Presents s.vars x.1 x.2) (hh : s.host = l.map Prod.fst ++ rest) :
    ∃ t, Performs (51 * l.length) (l.map Prod.snd) s t ∧ t.host = rest ∧ t.res = s.res ∧ t.vars = s.vars := by
  induction l generalizing s with
  | nil => exact ⟨s, Performs.refl h hr, hh, rfl, rfl⟩
  | cons x l ih =>
    rw [List.forall_mem_cons] at hl
    obtain ⟨hx, hl⟩ := hl
    have hfirst := performs_frame h hr (hx s _ rfl h.idle hr hh)
    obtain ⟨t, ht, hhost, hres, hvars⟩ := ih hfirst.atRest hfirst.noReset hl rfl
    refine ⟨t, ?_, hhost, hres, hvars⟩
    rw [List.length_cons, Nat.mul_succ, Nat.add_comm]
    exact hfirst.trans ht

/-- The frames of (address, data) pairs, each presented by its command word. -/
theorem exists_performs_presentFrames {l : List (Byte × Byte)} {rest : List HostAct} {s : State} (h : AtRest s) (hr : s.resets = [])
    (hh : s.host = l.map (fun p => presentFrame p.1 p.2) ++ rest) :
    ∃ t, Performs (51 * l.length) l s t ∧ t.host = rest ∧ t.res = s.res ∧ t.vars = s.vars := by
  have hframes := exists_performs_frames (l := l.map fun p => (presentFrame p.1 p.2, p)) (rest := rest) h hr
    (fun x hx => by obtain ⟨p, -, rfl⟩ := List.mem_map.mp hx; exact presents_presentFrame s.vars p.1 p.2)
    (by simpa [Function.comp_def] using hh)
  simpa [Function.comp_def] using hframes

/-! ### The host's calls -/

theorem step_call_ok {m : MacroOp} {acts rest : List HostAct} {s : State} (hb : s.busy = false) (hr : resetDue s.resets = false)
    (hh : s.host = .call m :: rest) (he : expand 0 m = .ok acts) :
    step s = .next ((s.withResets (tickResets s.resets)).withHost (acts ++ rest)) := by
  rw [step_idle s hr hb, hostMove]
  simp only [State.withResets_host, hh, he]

theorem step_call_error {m : MacroOp} {r : Refusal} {rest : List HostAct} {s : State} (hb : s.busy = false)
    (hr : resetDue s.resets = false) (hh : s.host = .call m :: rest) (he : expand 0 m = .error r) : step s = .refused r := by
  rw [step_idle s hr hb, hostMove]
  simp only [State.withResets_host, hh, he]

/-- The call is one step that puts the expansion in its place (R73; log 21). -/
theorem step_of_calls {m : MacroOp} {acts rest : List HostAct} {s : State} (h : Calls m rest s) (he : expand 0 m = .ok acts) :
    step s = .next (s.withHost (acts ++ rest)) := by
  rw [step_call_ok h.atRest.idle (by rw [h.noReset]; rfl) h.next he, withResets_tick_of_nil h.noReset]

theorem performs_call {m : MacroOp} {acts rest : List HostAct} {s : State} (h : Calls m rest s) (he : expand 0 m = .ok acts) :
    Performs 1 [] s (s.withHost (acts ++ rest)) :=
  performs_silent (step_of_calls h he) rfl rfl { h.atRest with } h.noReset

/-- An operation that expands to frames sends them in order, one step after the call. -/
theorem exists_performs_call_frames {n : Nat} {m : MacroOp} {l : List (Byte × Byte)} {rest : List HostAct} {s : State}
    (h : Calls m rest s) (he : expand 0 m = .ok (l.map fun p => presentFrame p.1 p.2)) (hn : 1 + 51 * l.length = n) :
    ∃ t, Performs n l s t ∧ t.host = rest ∧ t.res = s.res := by
  have hcall := performs_call h he
  obtain ⟨t, ht, hhost, hres, -⟩ := exists_performs_presentFrames hcall.atRest hcall.noReset rfl
  exact ⟨t, (hcall.trans ht).of_eq hn rfl, hhost, hres⟩

/-! ### Encoder actions -/

/-- An encoder word leaves its byte in `RES` and the wire at rest. -/
theorem performs_encoder {w : PortWord} {i : Instr} {b : Byte} {s : State} {rest : List HostAct} (h : AtRest s) (hr : s.resets = [])
    (hh : s.host = .present w :: rest) (hw : decode w = .op i) (hi : exec i = issueEncode b) :
    Performs 1 [] s ((s.withHost rest).setRes b) := by
  have hstep : step s = .next ((s.withHost rest).setRes b) := by
    rw [step_idle_of_nil hr h.idle, hostMove, hh]
    exact (presentWord_of_op _ hw).trans ((congrFun hi _).trans (issueEncode_ready b _ h.idle))
  exact performs_silent hstep rfl rfl { h with } hr

/-- The host reads `RES` into one of its variables. -/
theorem performs_takeRes {v : Nat} {dp : Bool} {s : State} {rest : List HostAct} (h : AtRest s) (hr : s.resets = [])
    (hh : s.host = .takeRes v dp :: rest) :
    Performs 1 [] s ((s.withHost rest).setVar v (if dp then addPoint s.res else s.res)) := by
  have hstep : step s = .next ((s.withHost rest).setVar v (if dp then addPoint s.res else s.res)) := by
    rw [step_idle_of_nil hr h.idle, hostMove, hh]
  exact performs_silent hstep rfl rfl { h with } hr

end Sys2Proof.Machine

namespace Sys2Proof.Claims

open Sys2Proof.Machine

/-- Settles O30: frame by frame, 51 steps each. -/
theorem presentedFramesTakeEffectInOrder : Obligations.PresentedFramesTakeEffectInOrder := by
  intro l rest s h hr hh
  obtain ⟨t, ht, hhost, hres, hvars⟩ := exists_performs_presentFrames h hr hh
  exact ⟨t, ht.runs, ht.sent, hhost, hres, hvars⟩

/-- Settles O54: the claim's reading of an operand is the machine's own. -/
theorem resIsAnOperandOfWrreg : Obligations.ResIsAnOperandOfWrreg := by
  intro a d rest s h hr hh value
  have hvalue (o : WrregOperand) : value o = s.operand o := by cases o <;> rfl
  simp only [hvalue]
  refine ⟨fun x y ha hd => ?_, fun hunset => ?_⟩
  · have hframe := performs_frame h hr (step_presentWrreg h.idle hr hh ha hd)
    exact ⟨_, hframe.runs, hframe.sent, rfl, rfl⟩
  · rw [step_idle_of_nil hr h.idle, hostMove, hh]
    rcases hunset with hnone | hnone
    · simp only [hnone]
      rfl
    · simp only [hnone]
      cases s.operand a <;> rfl

end Sys2Proof.Claims
end

section
/-! SUPPORT. The operations a host calls (R110, R125 to R133): what the eight digit registers hold after eight frames, the bytes of the encoder, and
the two shapes of expansion that use it, `TEXT`'s and `DISPLAY` of eight digits. -/

namespace Sys2Proof.Machine

open Sys2Proof.Claims

/-! ### Eight digits shown -/

/-- The frames that show these segment bytes, leftmost first (R50, D12). -/
def digitFrames (segs : Fin 8 → Byte) : List (Byte × Byte) :=
  (List.finRange 8).map fun k => (BitVec.ofNat 8 (8 - k.val), segs k)

@[simp] theorem length_digitFrames (segs : Fin 8 → Byte) : (digitFrames segs).length = 8 := by simp [digitFrames]

/-- Eight frames to eight addresses leave each digit its byte and every other register alone. -/
theorem digitsShown_of_framesSent {segs : Fin 8 → Byte} {s t : State} (h : FramesSent (digitFrames segs) s t) :
    DigitsShown segs s t := by
  obtain ⟨htrace, hreg, hrest⟩ := h
  have haddr (k : Fin 8) : (BitVec.ofNat 8 (8 - k.val)).toNat = 8 - k.val := by
    rw [BitVec.toNat_ofNat]
    omega
  have hnodup : ((List.finRange 8).map fun k : Fin 8 => (BitVec.ofNat 8 (8 - k.val)).toNat).Nodup := by decide
  rw [digitFrames, List.foldl_map] at hreg
  refine ⟨by rw [htrace, digitFrames, List.flatMap_map], fun k => ?_, fun a ha => ?_, hrest⟩
  · rw [hreg, ← haddr k]
    exact read_foldl_write_of_mem s.reg hnodup (List.mem_finRange k)
  · rw [hreg]
    refine read_foldl_write_of_forall_ne s.reg fun k _ => ?_
    rw [haddr k]
    omega

/-- A run that sent the eight frames shows the digits. -/
theorem Performs.digitsShown {n : Nat} {segs : Fin 8 → Byte} {s t : State} (h : Performs n (digitFrames segs) s t) :
    DigitsShown segs s t := digitsShown_of_framesSent h.sent

/-! ### The encoder's bytes -/

/-- `ENCC` as the claims give it is the machine's. -/
theorem encc_eq_charPattern (x : Byte) : encc x = charPattern x := by
  rw [encc, charPattern, setWidth_and_0x7F]

theorem charPattern_space : charPattern 0x20#8 = 0x00#8 := charPattern_setWidth 0x20#7

/-- `ENCD` as the claims give it is the machine's, at a byte. -/
theorem digitPattern_ofNat {v : Nat} (h : v ≤ 255) : digitPattern (BitVec.ofNat 8 v) = encd v := by
  have hv : (BitVec.ofNat 8 v).toNat = v := by
    rw [BitVec.toNat_ofNat]
    omega
  simp only [digitPattern, encd, hv]

/-- Adding the decimal point to a byte below 128 sets its top bit (R65, R75). -/
theorem addPoint_eq_or {p : Byte} (h : p.toNat < 128) : addPoint p = p ||| 0x80#8 := by
  rw [addPoint, if_pos h, add_128_eq_or_point h]

theorem toNat_encd_lt (v : Nat) : (encd v).toNat < 128 := by
  unfold encd
  split_ifs with h
  · rw [BitVec.toNat_setWidth]
    exact (Nat.mod_le _ _).trans_lt (BitVec.isLt _)
  · decide

/-! ### Encode, then write `RES`: the expansion of `TEXT` (R126) -/

/-- The two actions that show the character `p.2` at the address `p.1`. -/
def showChar (p : Byte × Byte) : List HostAct := [.present (encode (.encc p.2)), .presentWrreg (.byte p.1) .res]

/-- The character at an address takes 52 steps: the encoder, then the frame of what it left in `RES`. -/
theorem performs_showChar {p : Byte × Byte} {rest : List HostAct} {s : State} (h : AtRest s) (hr : s.resets = [])
    (hh : s.host = showChar p ++ rest) :
    ∃ t, Performs 52 [(p.1, charPattern p.2)] s t ∧ t.host = rest ∧ t.res = charPattern p.2 := by
  have hencode := performs_encoder h hr hh (decode_encode_encc p.2) (b := charPattern p.2) rfl
  have hstep := step_presentWrreg (d := .res) hencode.atRest.idle hencode.noReset rfl (operand_byte _ p.1) (operand_res _)
  exact ⟨_, hencode.trans (performs_frame hencode.atRest hencode.noReset hstep), rfl, rfl⟩

/-- Characters at addresses, one after the other; `RES` is the last one's byte. -/
theorem exists_performs_showChars {l : List (Byte × Byte)} {rest : List HostAct} {s : State} (h : AtRest s) (hr : s.resets = [])
    (hh : s.host = l.flatMap showChar ++ rest) :
    ∃ t, Performs (52 * l.length) (l.map fun p => (p.1, charPattern p.2)) s t ∧ t.host = rest ∧
      t.res = l.foldl (fun _ p => charPattern p.2) s.res := by
  induction l generalizing s with
  | nil => exact ⟨s, Performs.refl h hr, hh, rfl⟩
  | cons p l ih =>
    rw [List.flatMap_cons, List.append_assoc] at hh
    obtain ⟨t, ht, hhost, hres⟩ := performs_showChar h hr hh
    obtain ⟨u, hu, hhost', hres'⟩ := ih ht.atRest ht.noReset hhost
    refine ⟨u, ?_, hhost', by rw [hres', hres]; rfl⟩
    rw [List.length_cons, Nat.mul_succ, Nat.add_comm]
    exact ht.trans hu

/-- The expansion of `TEXT` shows the encoding of each of its eight characters (R126). -/
theorem exists_performs_call_text {m : MacroOp} {txt : List Byte} {rest : List HostAct} {s : State} (h : Calls m rest s)
    (he : expand 0 m = .ok (expandText txt)) :
    ∃ t, Performs 417 (digitFrames fun k => charPattern (charAt txt (k.val + 1))) s t ∧ t.host = rest ∧
      t.res = charPattern (charAt txt 8) := by
  have hcall := performs_call h he
  have hchars : expandText txt = (positions.map fun k => (addrOfPosition k, charAt txt k)).flatMap showChar := by
    rw [List.flatMap_map]
    rfl
  obtain ⟨t, ht, hhost, hres⟩ := exists_performs_showChars (rest := rest) hcall.atRest hcall.noReset
    (congrArg (· ++ rest) hchars)
  exact ⟨t, (hcall.trans ht).of_eq (by simp [positions]) rfl, hhost, hres⟩

/-! ### Eight digits through the host's variables: the expansion of `TIME` and `DATE` (R128, R130) -/

/-- The segment byte of a digit with whether its decimal point is lit. -/
def digitSegment (d : Nat × Bool) : Byte :=
  if d.2 then addPoint (digitPattern (BitVec.ofNat 8 d.1)) else digitPattern (BitVec.ofNat 8 d.1)

/-- The same byte in the words of the claims. -/
def shownDigit (d : Nat × Bool) : Byte := if d.2 then encd d.1 ||| 0x80#8 else encd d.1

theorem digitSegment_eq_shownDigit {d : Nat × Bool} (h : d.1 ≤ 255) : digitSegment d = shownDigit d := by
  rw [digitSegment, shownDigit, digitPattern_ofNat h, addPoint_eq_or (toNat_encd_lt d.1)]

/-- The two actions that put a digit's segment byte into a variable. -/
def takeDigit (p : (Nat × Bool) × Nat) : List HostAct := [.present (encode (.encd (BitVec.ofNat 8 p.1.1))), .takeRes p.2 p.1.2]

theorem performs_takeDigit {p : (Nat × Bool) × Nat} {rest : List HostAct} {s : State} (h : AtRest s) (hr : s.resets = [])
    (hh : s.host = takeDigit p ++ rest) :
    ∃ t, Performs 2 [] s t ∧ t.host = rest ∧ t.res = digitPattern (BitVec.ofNat 8 p.1.1) ∧
      t.vars = s.vars.write p.2 (digitSegment p.1) := by
  have hencode := performs_encoder h hr hh (decode_encode_encd (BitVec.ofNat 8 p.1.1)) (b := digitPattern (BitVec.ofNat 8 p.1.1)) rfl
  exact ⟨_, hencode.trans (performs_takeRes hencode.atRest hencode.noReset rfl), rfl, rfl, rfl⟩

/-- Digits into variables, one after the other; nothing goes out. -/
theorem exists_performs_takeDigits {l : List ((Nat × Bool) × Nat)} {rest : List HostAct} {s : State} (h : AtRest s) (hr : s.resets = [])
    (hh : s.host = l.flatMap takeDigit ++ rest) :
    ∃ t, Performs (2 * l.length) [] s t ∧ t.host = rest ∧
      t.res = l.foldl (fun _ p => digitPattern (BitVec.ofNat 8 p.1.1)) s.res ∧
      t.vars = l.foldl (fun m p => m.write p.2 (digitSegment p.1)) s.vars := by
  induction l generalizing s with
  | nil => exact ⟨s, Performs.refl h hr, hh, rfl, rfl⟩
  | cons p l ih =>
    rw [List.flatMap_cons, List.append_assoc] at hh
    obtain ⟨t, ht, hhost, hres, hvars⟩ := performs_takeDigit h hr hh
    obtain ⟨u, hu, hhost', hres', hvars'⟩ := ih ht.atRest ht.noReset hhost
    refine ⟨u, ?_, hhost', by rw [hres', hres]; rfl, by rw [hvars', hvars]; rfl⟩
    rw [List.length_cons, Nat.mul_succ, Nat.add_comm]
    exact ht.trans hu

/-- The expansion of eight digits shows their segment bytes (R128, R130). -/
theorem exists_performs_call_digits {m : MacroOp} {d1 d2 d3 d4 d5 d6 d7 d8 : Nat × Bool} {rest : List HostAct} {s : State}
    (h : Calls m rest s) (he : expand 0 m = .ok (expandDigits 0 [d1, d2, d3, d4, d5, d6, d7, d8]))
    (hbyte : ∀ d ∈ [d1, d2, d3, d4, d5, d6, d7, d8], d.1 ≤ 255) :
    ∃ t, Performs 425 (digitFrames fun k => shownDigit ([d1, d2, d3, d4, d5, d6, d7, d8][k])) s t ∧ t.host = rest ∧
      t.res = encd d8.1 := by
  set ds := [d1, d2, d3, d4, d5, d6, d7, d8] with hds
  have hcall := performs_call h he
  obtain ⟨t, ht, hhost, hres, hvars⟩ := exists_performs_takeDigits (l := ds.zipIdx) hcall.atRest hcall.noReset
    (List.append_assoc (ds.zipIdx.flatMap takeDigit) _ rest)
  have hread (k : Fin 8) : t.vars.read k.val = some (shownDigit ds[k]) := by
    have hk : digitSegment ds[k] = shownDigit ds[k] := digitSegment_eq_shownDigit (hbyte _ (List.getElem_mem _))
    rw [hvars, ← hk]
    exact read_foldl_write_of_mem (key := Prod.snd) (val := fun p => digitSegment p.1) (x := (ds[k], k.val)) s.vars
      (List.nodup_zipIdx_map_snd ds) (by simp [List.mem_zipIdx_iff_getElem?])
  obtain ⟨u, hu, hhost', hres', -⟩ := exists_performs_frames (rest := rest)
    (l := (List.finRange 8).map fun k : Fin 8 => (HostAct.presentWrreg (.byte (BitVec.ofNat 8 (8 - k.val))) (.var k.val),
      (BitVec.ofNat 8 (8 - k.val), shownDigit ds[k]))) ht.atRest ht.noReset
    (fun x hx => by obtain ⟨k, -, rfl⟩ := List.mem_map.mp hx; exact presents_presentWrreg_var _ (hread k)) hhost
  have hlast : t.res = encd d8.1 := hres.trans (digitPattern_ofNat (hbyte d8 (by simp [hds])))
  exact ⟨u, (hcall.trans (ht.trans hu)).of_eq (by simp [hds]) rfl, hhost', hres'.trans hlast⟩

/-! ### The text of `COORD` (R131) -/

/-- The eight characters of `COORD` before the decimal point is added: the label, padding, the number. -/
def coordPlain (c : Byte) (s : List Byte) : List Byte := [c] ++ List.replicate (7 - s.length) 0x20#8 ++ s

theorem coordText_eq (c : Byte) (s : List Byte) : coordText c s = (coordPlain c s).modify 4 addPoint := rfl

/-- Position 0 is the label; then padding up to the number's first character. -/
theorem getElem?_coordPlain (c : Byte) {s : List Byte} (hs : s.length ≤ 7) {k : Nat} (hk : k < 8) :
    (coordPlain c s)[k]? = some (if k = 0 then c else if k ≤ 7 - s.length then 0x20#8 else s.getD (k - (8 - s.length)) 0x00#8) := by
  rw [coordPlain, List.append_assoc]
  rcases Nat.eq_zero_or_pos k with rfl | hpos
  · rfl
  obtain ⟨j, rfl⟩ := Nat.exists_eq_add_of_le' hpos
  rw [if_neg (by omega), List.singleton_append, List.getElem?_cons_succ]
  split_ifs with hpad
  · rw [List.getElem?_append_left (by rw [List.length_replicate]; omega), List.getElem?_replicate, if_pos (by omega)]
  · have hj : j + 1 - (8 - s.length) = j - (7 - s.length) := by omega
    rw [List.getElem?_append_right (by rw [List.length_replicate]; omega), List.length_replicate, hj,
      List.getD_eq_getElem _ _ (by omega), List.getElem?_eq_getElem]

/-- The decimal string of a number is of characters below 128. -/
theorem toNat_lt_of_mem_dec {n : Int} {x : Byte} (h : x ∈ dec n) : x.toNat < 128 := by
  rcases lt_or_ge n 0 with hneg | hnonneg
  · rw [dec_of_neg hneg, List.mem_cons] at h
    rcases h with rfl | h
    · decide
    · obtain ⟨-, hle⟩ := range_of_mem_decNat h
      omega
  · rw [dec_of_nonneg hnonneg] at h
    obtain ⟨-, hle⟩ := range_of_mem_decNat h
    omega

theorem toNat_getD_dec_lt (n : Int) (i : Nat) : ((dec n).getD i 0x00#8).toNat < 128 := by
  rw [List.getD_eq_getElem?_getD]
  cases hget : (dec n)[i]? with
  | none => decide
  | some x => exact toNat_lt_of_mem_dec (List.mem_of_getElem? hget)

/-- The byte each position of `COORD` shows, in the claim's words. -/
theorem charPattern_coordText (c : Byte) {n : Int} (hn : (dec n).length ≤ 7) (k : Fin 8) :
    charPattern (charAt (coordText c (dec n)) (k.val + 1)) =
      if k.val = 0 then encc c
      else
        let plain : Byte := if k.val ≤ 7 - (dec n).length then 0x00#8 else encc ((dec n).getD (k.val - (8 - (dec n).length)) 0x00#8)
        if k.val = 4 then plain ||| 0x80#8 else plain := by
  have hget := getElem?_coordPlain c hn k.isLt
  simp only [encc_eq_charPattern]
  rw [charAt, Nat.add_sub_cancel, List.getD_eq_getElem?_getD, coordText_eq]
  by_cases h4 : k.val = 4
  · have hlt := toNat_getD_dec_lt n (4 - (8 - (dec n).length))
    rw [h4] at hget ⊢
    rw [List.getElem?_modify_eq, hget]
    simp only [OfNat.ofNat_ne_zero, if_false, if_true, Option.map_eq_map, Option.map_some, Option.getD_some]
    split_ifs
    · rw [addPoint_eq_or (by decide), charPattern_or_point, charPattern_space]
    · rw [addPoint_eq_or hlt, charPattern_or_point]
  · rw [List.getElem?_modify_ne _ _ (Ne.symm h4), hget, if_neg h4]
    simp only [Option.getD_some]
    split_ifs
    · rfl
    · exact charPattern_space
    · rfl

theorem expandCoord_eq {n : Int} (c : Byte) (h : (dec n).length ≤ 7) : expandCoord c n = .ok (expandText (coordText c (dec n))) :=
  if_pos h

/-! ### Domains (D13) -/

/-- An operation expands exactly inside its domain, and every other is refused (U5, U14). -/
theorem expand_cases (m : MacroOp) :
    (m.wellFormed = true ∧ ∃ acts, expand 0 m = .ok acts) ∨ (m.wellFormed = false ∧ ∃ r, expand 0 m = .error r) := by
  cases m with
  | time h mi sec x =>
    by_cases hd : h ≤ 255 ∧ mi ≤ 255 ∧ sec ≤ 255 ∧ x ≤ 255
    · exact .inl ⟨decide_eq_true hd, _, if_pos hd⟩
    · exact .inr ⟨decide_eq_false hd, _, if_neg hd⟩
  | date day month year =>
    by_cases hd : day ≤ 255 ∧ month ≤ 255 ∧ year ≤ 65535
    · exact .inl ⟨decide_eq_true hd, _, if_pos hd⟩
    · exact .inr ⟨decide_eq_false hd, _, if_neg hd⟩
  | coord c n =>
    by_cases hd : (dec n).length ≤ 7
    · exact .inl ⟨decide_eq_true ((length_dec_le_seven_iff n).mp hd), _, if_pos hd⟩
    · exact .inr ⟨decide_eq_false fun hr => hd ((length_dec_le_seven_iff n).mpr hr), _, if_neg hd⟩
  | init | display | text | bright | test => exact .inl ⟨rfl, _, rfl⟩

end Sys2Proof.Machine

namespace Sys2Proof.Claims

open Sys2Proof.Machine

/-- Settles O40: five frames, each to a register of its own. -/
theorem initSendsTheSameFiveFramesEveryTime : Obligations.InitSendsTheSameFiveFramesEveryTime := by
  intro rest s h
  obtain ⟨t, ht, hhost, hres⟩ := exists_performs_call_frames
    (l := [(0x0F#8, 0x00#8), (0x0C#8, 0x01#8), (0x0B#8, 0x07#8), (0x0A#8, 0x0F#8), (0x09#8, 0x00#8)]) h rfl rfl
  obtain ⟨htrace, hreg, -⟩ := ht.sent
  refine ⟨t, ht.runs, ht.sent, ?length, ?configured, fun a ha => ?others, hres, hhost⟩
  case length =>
    rw [htrace, List.length_append]
    simp [frameEvents]
  case configured => constructor <;> simp [State.target, TargetReg.addr, hreg, Memory.read_write]
  case others =>
    simp only [List.mem_cons, List.not_mem_nil, or_false, not_or] at ha
    simp [hreg, Memory.read_write, ha]

/-- Settles O41: the eight bytes are the eight frames. -/
theorem displayWritesTheEightBytesAsGiven : Obligations.DisplayWritesTheEightBytesAsGiven := by
  intro s1 s2 s3 s4 s5 s6 s7 s8 rest s h
  obtain ⟨t, ht, hhost, hres⟩ := exists_performs_call_frames
    (l := digitFrames fun k => ([s1, s2, s3, s4, s5, s6, s7, s8] : List Byte).getD k.val 0x00#8) (n := 409) h rfl (by simp)
  exact ⟨t, ht.runs, ht.digitsShown, hres, hhost⟩

/-- Settles O42: past the text's end the character is the space, which is blank. -/
theorem textShowsItsFirstEightCharacters : Obligations.TextShowsItsFirstEightCharacters := by
  intro txt rest s h
  have hchar (k : Nat) : charPattern (charAt txt (k + 1)) = if h : k < txt.length then encc txt[k] else 0x00#8 := by
    rw [charAt, Nat.add_sub_cancel]
    split_ifs with hk
    · rw [List.getD_eq_getElem _ _ hk, encc_eq_charPattern]
    · rw [List.getD_eq_default _ _ (by omega), charPattern_space]
  obtain ⟨t, ht, hhost, hres⟩ := exists_performs_call_text h rfl
  simp only [hchar] at ht
  exact ⟨t, ht.runs, ht.digitsShown, hres.trans (hchar 7), hhost⟩

/-- Settles O43: the eight digits of the four fields. -/
theorem timeShowsItsFourFields : Obligations.TimeShowsItsFourFields := by
  intro h m sec x rest s hcalls hh hm hsec hx
  obtain ⟨t, ht, hhost, hres⟩ := exists_performs_call_digits (d1 := (h / 10, false)) (d2 := (h % 10, true)) (d3 := (m / 10, false))
    (d4 := (m % 10, true)) (d5 := (sec / 10, false)) (d6 := (sec % 10, true)) (d7 := (x / 10, false)) (d8 := (x % 10, false))
    hcalls (if_pos ⟨hh, hm, hsec, hx⟩) (by simp; omega)
  refine ⟨t, ht.runs, ?_, hres, hhost⟩
  convert ht.digitsShown using 2 with k
  fin_cases k <;> rfl

/-- Settles O44: the digits of day and month, and the four of the year. -/
theorem dateShowsDayMonthAndYear : Obligations.DateShowsDayMonthAndYear := by
  intro day month year rest s hcalls hday hmonth hyear
  obtain ⟨t, ht, hhost, hres⟩ := exists_performs_call_digits (d1 := (day / 10, false)) (d2 := (day % 10, true))
    (d3 := (month / 10, false)) (d4 := (month % 10, true)) (d5 := (year / 1000, false)) (d6 := (year / 100 % 10, false))
    (d7 := (year / 10 % 10, false)) (d8 := (year % 10, false)) hcalls (if_pos ⟨hday, hmonth, hyear⟩) (by simp; omega)
  refine ⟨t, ht.runs, ?_, hres, hhost⟩
  convert ht.digitsShown using 2 with k
  fin_cases k <;> rfl

/-- Settles O45: `TEXT` of the composed characters, which fit in the stated range. -/
theorem coordShowsLabelPaddingAndNumber : Obligations.CoordShowsLabelPaddingAndNumber := by
  intro c n rest s h hlo hhi
  have hn : (dec n).length ≤ 7 := (length_dec_le_seven_iff n).mpr ⟨hlo, hhi⟩
  obtain ⟨t, ht, hhost, -⟩ := exists_performs_call_text h (expandCoord_eq c hn)
  simp only [charPattern_coordText c hn] at ht
  exact ⟨t, ht.runs, ht.digitsShown, hhost⟩

/-- Settles O46: one frame in range, and an empty expansion outside. -/
theorem brightnessIsSetInRangeAndIgnoredOutside : Obligations.BrightnessIsSetInRangeAndIgnoredOutside := by
  refine fun level rest s h => ⟨fun hlo hhi => ?_, fun hout => ?_⟩
  · obtain ⟨n, rfl⟩ := Int.eq_ofNat_of_zero_le hlo
    have hn : n ≤ 15 := by omega
    have hbyte : (BitVec.ofInt 8 (n : Int)) = BitVec.ofNat 8 n := BitVec.ofInt_natCast 8 n
    have hval : (BitVec.ofNat 8 n).toNat = n := by
      rw [BitVec.toNat_ofNat]
      omega
    obtain ⟨t, ht, hhost, hres⟩ := exists_performs_call_frames (l := [(0x0A#8, BitVec.ofInt 8 (n : Int))]) h
      (by rw [hbyte]; exact congrArg Except.ok (if_pos ⟨hlo, hhi⟩)) rfl
    obtain ⟨-, hreg, -⟩ := ht.sent
    have htarget : t.target .intensity = some (BitVec.ofInt 8 (n : Int)) := by
      rw [State.target, hreg]
      exact Memory.read_write_same s.reg 0x0A _
    have hlisted : TargetReg.intensity.listed (BitVec.ofInt 8 (n : Int)) = true := by
      rw [hbyte]
      exact decide_eq_true (by omega)
    refine ⟨t, ht.runs, ht.sent, ?_, fun a ha => ?_, hres, hhost⟩
    · rw [State.brightness, meaningful_of_target htarget hlisted, hbyte, Option.map_some, hval, Int.toNat_natCast]
    · rw [hreg]
      exact Memory.read_write_of_ne _ _ _ _ ha
  · have hnone : expand 0 (.bright level) = .ok [] := congrArg Except.ok (if_neg (by omega))
    exact step_of_calls h hnone

/-- Settles O47: the pattern is the eight frames, and none is to the display-test register. -/
theorem testWritesTheFixedPattern : Obligations.TestWritesTheFixedPattern := by
  intro rest s h
  obtain ⟨t, ht, hhost, hres⟩ := exists_performs_call_frames (l := digitFrames Config.testPattern) (n := 409) h rfl (by simp)
  obtain ⟨htrace, hdigits, hothers, hrest⟩ := ht.digitsShown
  exact ⟨t, ht.runs, ht.digitsShown, hothers 0x0F (by decide), hres, hhost⟩

/-- Settles O49: the call answers by the expansion, which exists exactly inside the domain. -/
theorem macrosAreRefusedExactlyOutsideTheirDomain : Obligations.MacrosAreRefusedExactlyOutsideTheirDomain := by
  intro m rest s hb hr hh
  rcases expand_cases m with ⟨hwf, acts, he⟩ | ⟨hwf, r, he⟩
  · rw [step_call_ok hb hr hh he, hwf]
    exact ⟨⟨fun _ => rfl, fun _ => ⟨_, rfl⟩⟩, fun hf => by cases hf⟩
  · rw [step_call_error hb hr hh he, hwf]
    exact ⟨⟨fun ⟨t, ht⟩ => by (cases ht), fun hf => by cases hf⟩, fun _ => ⟨r, rfl⟩⟩

end Sys2Proof.Claims
end
